-- ==== Sys2Proof/Word.lean ====
section
/-! DEFINITION. The words of the machine: the widths of spec/00_scope.md R5 and the exact time of
spec/10_state.md R30. -/

namespace Sys2Proof

/-- A register value, a memory cell or an 8-bit immediate `nn` (R5, R20). -/
abbrev Byte := BitVec 8

/-- A 4-bit field of an instruction that is not a register index (R71). -/
abbrev Nibble := BitVec 4

/-- The index of one of the 16 general registers (R20: every 4-bit value names a register). -/
abbrev Reg := Fin 16

/-- A 16-bit value of `pc`, of `I` or of a call-stack entry (`ADDR_W`, R5 and decision D1). -/
abbrev Addr := BitVec 16

/-- An instruction word (R70). -/
abbrev Word := BitVec 16

/-- The flag register VF is register 15 (R5, R21). -/
abbrev flagReg : Reg := 15

/-- An exact non-negative rational number of seconds, `num / (denPred + 1)` (R30, R32; decisions D15
and D26; assumption log 7). No negative value and no zero denominator can be written. -/
structure Seconds where
  /-- the numerator -/
  num : Nat
  /-- the denominator less one -/
  denPred : Nat
  deriving DecidableEq, Repr, Inhabited

end Sys2Proof
end

