-- ==== Sys2Proof/Syntax.lean ====
section
/-! DEFINITION. The 33 instructions of spec/30_encoding.md R74 (spec/opcode_table.json), one
constructor a row, in the table's order. -/

namespace Sys2Proof

/-- An instruction with its operand fields (R71, R75, R77).
The fields R76 calls ignored stay operands, so that no bit of a word is lost; no meaning reads them
(assumption log 12). -/
inductive Instr where
  /-- `00E0` CLS; `x` is ignored (R161, R76) -/
  | cls (x : Nibble)
  /-- `00EE` RET; `x` is ignored (R101, R76) -/
  | ret (x : Nibble)
  /-- `1nnn` JP nnn (R102) -/
  | jp (nnn : BitVec 12)
  /-- `2nnn` CALL nnn (R103) -/
  | call (nnn : BitVec 12)
  /-- `3xnn` SE Vx, nn (R104) -/
  | seImm (x : Reg) (nn : Byte)
  /-- `4xnn` SNE Vx, nn (R105) -/
  | sneImm (x : Reg) (nn : Byte)
  /-- `5xy0` SE Vx, Vy; `n` is ignored (R106, R76) -/
  | seReg (x : Reg) (y : Reg) (n : Nibble)
  /-- `6xnn` LD Vx, nn (R121) -/
  | ldImm (x : Reg) (nn : Byte)
  /-- `7xnn` ADD Vx, nn (R122) -/
  | addImm (x : Reg) (nn : Byte)
  /-- `8xy0` LD Vx, Vy (R123) -/
  | ldReg (x : Reg) (y : Reg)
  /-- `8xy1` OR Vx, Vy (R124) -/
  | or (x : Reg) (y : Reg)
  /-- `8xy2` AND Vx, Vy (R125) -/
  | and (x : Reg) (y : Reg)
  /-- `8xy3` XOR Vx, Vy (R126) -/
  | xor (x : Reg) (y : Reg)
  /-- `8xy4` ADD Vx, Vy (R127) -/
  | addReg (x : Reg) (y : Reg)
  /-- `8xy5` SUB Vx, Vy (R128) -/
  | subReg (x : Reg) (y : Reg)
  /-- `8xy6` SHR Vx; `y` is ignored (R129, R76) -/
  | shr (x : Reg) (y : Reg)
  /-- `8xy7` SUBN Vx, Vy (R130) -/
  | subnReg (x : Reg) (y : Reg)
  /-- `8xyE` SHL Vx; `y` is ignored (R131, R76) -/
  | shl (x : Reg) (y : Reg)
  /-- `9xy0` SNE Vx, Vy; `n` is ignored (R107, R76) -/
  | sneReg (x : Reg) (y : Reg) (n : Nibble)
  /-- `Annn` LD I, nnn (R140) -/
  | ldI (nnn : BitVec 12)
  /-- `Cxnn` RND Vx, nn (R132) -/
  | rnd (x : Reg) (nn : Byte)
  /-- `Dxyn` DRW Vx, Vy, n (R162) -/
  | drw (x : Reg) (y : Reg) (n : Nibble)
  /-- `Ex9E` SKP Vx (R181) -/
  | skp (x : Reg)
  /-- `ExA1` SKNP Vx (R182) -/
  | sknp (x : Reg)
  /-- `Fx07` LD Vx, DT (R185) -/
  | ldRegDT (x : Reg)
  /-- `Fx15` LD DT, Vx (R186) -/
  | ldDTReg (x : Reg)
  /-- `Fx18` LD ST, Vx (R187) -/
  | ldSTReg (x : Reg)
  /-- `Fx1E` ADD I, Vx (R141) -/
  | addI (x : Reg)
  /-- `Fx29` LD F, Vx (R142) -/
  | ldGlyph (x : Reg)
  /-- `Fx33` LD B, Vx (R143) -/
  | ldDigits (x : Reg)
  /-- `Fx55` LD [I], Vx (R144) -/
  | storeRegs (x : Reg)
  /-- `Fx65` LD Vx, [I] (R145) -/
  | loadRegs (x : Reg)
  /-- `Fx0A` LD Vx, K (R183) -/
  | waitKey (x : Reg)
  deriving DecidableEq, Repr

end Sys2Proof
end

