-- ==== Sys2Proof/WellFormed.lean ====
section
/-! DEFINITION. Well-formed instructions: the spellings that the patterns of spec/30_encoding.md R74
show. -/

namespace Sys2Proof

/-- The instruction is spelled as its pattern shows it (R76: "Programs should write the ignored bits
as 0, as the patterns show"): the nibble that the pattern writes as the digit 0 is 0.
Register numbers and immediates are well-formed by their types. The machine also runs the other
spellings (decision D8): decoding accepts them and no meaning looks at the ignored nibble. -/
def Instr.wellFormed : Instr → Bool
  | .cls x => x == 0
  | .ret x => x == 0
  | .jp _ => true
  | .call _ => true
  | .seImm _ _ => true
  | .sneImm _ _ => true
  | .seReg _ _ n => n == 0
  | .ldImm _ _ => true
  | .addImm _ _ => true
  | .ldReg _ _ => true
  | .or _ _ => true
  | .and _ _ => true
  | .xor _ _ => true
  | .addReg _ _ => true
  | .subReg _ _ => true
  | .shr _ _ => true
  | .subnReg _ _ => true
  | .shl _ _ => true
  | .sneReg _ _ n => n == 0
  | .ldI _ => true
  | .rnd _ _ => true
  | .drw _ _ _ => true
  | .skp _ => true
  | .sknp _ => true
  | .ldRegDT _ => true
  | .ldDTReg _ => true
  | .ldSTReg _ => true
  | .addI _ => true
  | .ldGlyph _ => true
  | .ldDigits _ => true
  | .storeRegs _ => true
  | .loadRegs _ => true
  | .waitKey _ => true

end Sys2Proof
end

