-- ==== Sys2Proof/Decode.lean ====
section
/-! DEFINITION. The decoder of spec/30_encoding.md R70 to R79 with its fields, the opcode table of
R74, and the encoder. -/

namespace Sys2Proof

/-- Why bytes are no instruction. -/
inductive Rejection where
  /-- the word selects no row of the table (R78, R79); the step runs R203 on it -/
  | unknownInstruction (w : Word)
  /-- fewer than the two bytes of an instruction are there (R70) -/
  | tooFewBytes
  deriving DecidableEq, Repr

/-- `op`, bits 15 to 12 (R71). -/
def Word.op (w : Word) : Nibble := w.extractLsb' 12 4

/-- `x`, bits 11 to 8, as the nibble (R71). -/
def Word.xNibble (w : Word) : Nibble := w.extractLsb' 8 4

/-- `y`, bits 7 to 4, as the nibble (R71). -/
def Word.yNibble (w : Word) : Nibble := w.extractLsb' 4 4

/-- `n`, bits 3 to 0 (R71). -/
def Word.n (w : Word) : Nibble := w.extractLsb' 0 4

/-- `nn`, bits 7 to 0 (R71). -/
def Word.nn (w : Word) : Byte := w.extractLsb' 0 8

/-- `nnn`, bits 11 to 0 (R71). -/
def Word.nnn (w : Word) : BitVec 12 := w.extractLsb' 0 12

/-- `x` used as a register index (R71). -/
def Word.x (w : Word) : Reg := (Word.xNibble w).toFin

/-- `y` used as a register index (R71). -/
def Word.y (w : Word) : Reg := (Word.yNibble w).toFin

/-- Second level of opcode 0x0, selected by `nn` (R73, decision D8). -/
def decodeOp0 (w : Word) : Except Rejection Instr :=
  match (Word.nn w).toNat with
  | 0xE0 => .ok (.cls (Word.xNibble w))
  | 0xEE => .ok (.ret (Word.xNibble w))
  | _ => .error (.unknownInstruction w)

/-- Second level of opcode 0x8, selected by `n` (R73). -/
def decodeOp8 (w : Word) : Except Rejection Instr :=
  match (Word.n w).toNat with
  | 0x0 => .ok (.ldReg (Word.x w) (Word.y w))
  | 0x1 => .ok (.or (Word.x w) (Word.y w))
  | 0x2 => .ok (.and (Word.x w) (Word.y w))
  | 0x3 => .ok (.xor (Word.x w) (Word.y w))
  | 0x4 => .ok (.addReg (Word.x w) (Word.y w))
  | 0x5 => .ok (.subReg (Word.x w) (Word.y w))
  | 0x6 => .ok (.shr (Word.x w) (Word.y w))
  | 0x7 => .ok (.subnReg (Word.x w) (Word.y w))
  | 0xE => .ok (.shl (Word.x w) (Word.y w))
  | _ => .error (.unknownInstruction w)

/-- Second level of opcode 0xE, selected by `nn` (R73, decision D8). -/
def decodeOpE (w : Word) : Except Rejection Instr :=
  match (Word.nn w).toNat with
  | 0x9E => .ok (.skp (Word.x w))
  | 0xA1 => .ok (.sknp (Word.x w))
  | _ => .error (.unknownInstruction w)

/-- Second level of opcode 0xF, selected by `nn` (R73). -/
def decodeOpF (w : Word) : Except Rejection Instr :=
  match (Word.nn w).toNat with
  | 0x07 => .ok (.ldRegDT (Word.x w))
  | 0x0A => .ok (.waitKey (Word.x w))
  | 0x15 => .ok (.ldDTReg (Word.x w))
  | 0x18 => .ok (.ldSTReg (Word.x w))
  | 0x1E => .ok (.addI (Word.x w))
  | 0x29 => .ok (.ldGlyph (Word.x w))
  | 0x33 => .ok (.ldDigits (Word.x w))
  | 0x55 => .ok (.storeRegs (Word.x w))
  | 0x65 => .ok (.loadRegs (Word.x w))
  | _ => .error (.unknownInstruction w)

/-- The decoder: total on every word, two-level, primary selection by `op` (R72, R73). -/
def decodeWord (w : Word) : Except Rejection Instr :=
  match (Word.op w).toNat with
  | 0x0 => decodeOp0 w
  | 0x1 => .ok (.jp (Word.nnn w))
  | 0x2 => .ok (.call (Word.nnn w))
  | 0x3 => .ok (.seImm (Word.x w) (Word.nn w))
  | 0x4 => .ok (.sneImm (Word.x w) (Word.nn w))
  | 0x5 => .ok (.seReg (Word.x w) (Word.y w) (Word.n w))
  | 0x6 => .ok (.ldImm (Word.x w) (Word.nn w))
  | 0x7 => .ok (.addImm (Word.x w) (Word.nn w))
  | 0x8 => decodeOp8 w
  | 0x9 => .ok (.sneReg (Word.x w) (Word.y w) (Word.n w))
  | 0xA => .ok (.ldI (Word.nnn w))
  | 0xC => .ok (.rnd (Word.x w) (Word.nn w))
  | 0xD => .ok (.drw (Word.x w) (Word.y w) (Word.n w))
  | 0xE => decodeOpE w
  | 0xF => decodeOpF w
  | _ => .error (.unknownInstruction w)

/-- The word of two bytes in memory order: the byte at the lower address is bits 15 to 8 (R57). -/
def wordOfBytes (hi lo : Byte) : Word := hi ++ lo

/-- Bits 15 to 8 of a word, the byte at the lower address (R57). -/
def Word.hiByte (w : Word) : Byte := w.extractLsb' 8 8

/-- Bits 7 to 0 of a word, the byte at the higher address (R57). -/
def Word.loByte (w : Word) : Byte := w.extractLsb' 0 8

/-- The decoder on bytes in memory order: the first instruction and the bytes after it (R57, R70). -/
def decode : List Byte → Except Rejection (Instr × List Byte)
  | hi :: lo :: rest =>
    match decodeWord (wordOfBytes hi lo) with
    | .ok i => .ok (i, rest)
    | .error e => .error e
  | _ => .error .tooFewBytes

/-- The instruction of an opcode-table word: bit 0 of `w` is bit 0 of the one 16-bit word; bits at
and above `nbits` are taken as 0. The word is laid out big-endian (R57) and given to the decoder. -/
def decodeTableWord (nbits w : Nat) : Option Instr :=
  let word : Word := BitVec.ofNat 16 (w % 2 ^ nbits)
  match decode [Word.hiByte word, Word.loByte word] with
  | .ok (i, _) => some i
  | .error _ => none

/-- A word of four nibbles, `op` first (R71). -/
def word4 (op x y n : Nibble) : Word := op ++ x ++ y ++ n

/-- A word of `op`, `x` and `nn` (R75, format XNN and XS). -/
def wordXNN (op x : Nibble) (nn : Byte) : Word := op ++ x ++ nn

/-- A word of `op` and `nnn` (R75, format NNN). -/
def wordNNN (op : Nibble) (nnn : BitVec 12) : Word := op ++ nnn

/-- The nibble of a register index. -/
def Reg.nibble (r : Reg) : Nibble := BitVec.ofFin r

/-- The word of an instruction, from the patterns of R74 and the formats of R75. -/
def encode : Instr → Word
  | .cls x => wordXNN 0x0 x 0xE0
  | .ret x => wordXNN 0x0 x 0xEE
  | .jp nnn => wordNNN 0x1 nnn
  | .call nnn => wordNNN 0x2 nnn
  | .seImm x nn => wordXNN 0x3 (Reg.nibble x) nn
  | .sneImm x nn => wordXNN 0x4 (Reg.nibble x) nn
  | .seReg x y n => word4 0x5 (Reg.nibble x) (Reg.nibble y) n
  | .ldImm x nn => wordXNN 0x6 (Reg.nibble x) nn
  | .addImm x nn => wordXNN 0x7 (Reg.nibble x) nn
  | .ldReg x y => word4 0x8 (Reg.nibble x) (Reg.nibble y) 0x0
  | .or x y => word4 0x8 (Reg.nibble x) (Reg.nibble y) 0x1
  | .and x y => word4 0x8 (Reg.nibble x) (Reg.nibble y) 0x2
  | .xor x y => word4 0x8 (Reg.nibble x) (Reg.nibble y) 0x3
  | .addReg x y => word4 0x8 (Reg.nibble x) (Reg.nibble y) 0x4
  | .subReg x y => word4 0x8 (Reg.nibble x) (Reg.nibble y) 0x5
  | .shr x y => word4 0x8 (Reg.nibble x) (Reg.nibble y) 0x6
  | .subnReg x y => word4 0x8 (Reg.nibble x) (Reg.nibble y) 0x7
  | .shl x y => word4 0x8 (Reg.nibble x) (Reg.nibble y) 0xE
  | .sneReg x y n => word4 0x9 (Reg.nibble x) (Reg.nibble y) n
  | .ldI nnn => wordNNN 0xA nnn
  | .rnd x nn => wordXNN 0xC (Reg.nibble x) nn
  | .drw x y n => word4 0xD (Reg.nibble x) (Reg.nibble y) n
  | .skp x => wordXNN 0xE (Reg.nibble x) 0x9E
  | .sknp x => wordXNN 0xE (Reg.nibble x) 0xA1
  | .ldRegDT x => wordXNN 0xF (Reg.nibble x) 0x07
  | .ldDTReg x => wordXNN 0xF (Reg.nibble x) 0x15
  | .ldSTReg x => wordXNN 0xF (Reg.nibble x) 0x18
  | .addI x => wordXNN 0xF (Reg.nibble x) 0x1E
  | .ldGlyph x => wordXNN 0xF (Reg.nibble x) 0x29
  | .ldDigits x => wordXNN 0xF (Reg.nibble x) 0x33
  | .storeRegs x => wordXNN 0xF (Reg.nibble x) 0x55
  | .loadRegs x => wordXNN 0xF (Reg.nibble x) 0x65
  | .waitKey x => wordXNN 0xF (Reg.nibble x) 0x0A

/-- The `mask` column of R74: which bits select the instruction's row. -/
def Instr.rowMask : Instr → Word
  | .cls _ => 0xF0FF
  | .ret _ => 0xF0FF
  | .jp _ => 0xF000
  | .call _ => 0xF000
  | .seImm _ _ => 0xF000
  | .sneImm _ _ => 0xF000
  | .seReg _ _ _ => 0xF000
  | .ldImm _ _ => 0xF000
  | .addImm _ _ => 0xF000
  | .ldReg _ _ => 0xF00F
  | .or _ _ => 0xF00F
  | .and _ _ => 0xF00F
  | .xor _ _ => 0xF00F
  | .addReg _ _ => 0xF00F
  | .subReg _ _ => 0xF00F
  | .shr _ _ => 0xF00F
  | .subnReg _ _ => 0xF00F
  | .shl _ _ => 0xF00F
  | .sneReg _ _ _ => 0xF000
  | .ldI _ => 0xF000
  | .rnd _ _ => 0xF000
  | .drw _ _ _ => 0xF000
  | .skp _ => 0xF0FF
  | .sknp _ => 0xF0FF
  | .ldRegDT _ => 0xF0FF
  | .ldDTReg _ => 0xF0FF
  | .ldSTReg _ => 0xF0FF
  | .addI _ => 0xF0FF
  | .ldGlyph _ => 0xF0FF
  | .ldDigits _ => 0xF0FF
  | .storeRegs _ => 0xF0FF
  | .loadRegs _ => 0xF0FF
  | .waitKey _ => 0xF0FF

/-- The `match` column of R74: the value of the selecting bits. -/
def Instr.rowMatch : Instr → Word
  | .cls _ => 0x00E0
  | .ret _ => 0x00EE
  | .jp _ => 0x1000
  | .call _ => 0x2000
  | .seImm _ _ => 0x3000
  | .sneImm _ _ => 0x4000
  | .seReg _ _ _ => 0x5000
  | .ldImm _ _ => 0x6000
  | .addImm _ _ => 0x7000
  | .ldReg _ _ => 0x8000
  | .or _ _ => 0x8001
  | .and _ _ => 0x8002
  | .xor _ _ => 0x8003
  | .addReg _ _ => 0x8004
  | .subReg _ _ => 0x8005
  | .shr _ _ => 0x8006
  | .subnReg _ _ => 0x8007
  | .shl _ _ => 0x800E
  | .sneReg _ _ _ => 0x9000
  | .ldI _ => 0xA000
  | .rnd _ _ => 0xC000
  | .drw _ _ _ => 0xD000
  | .skp _ => 0xE09E
  | .sknp _ => 0xE0A1
  | .ldRegDT _ => 0xF007
  | .ldDTReg _ => 0xF015
  | .ldSTReg _ => 0xF018
  | .addI _ => 0xF01E
  | .ldGlyph _ => 0xF029
  | .ldDigits _ => 0xF033
  | .storeRegs _ => 0xF055
  | .loadRegs _ => 0xF065
  | .waitKey _ => 0xF00A

/-- The rows of R74 in the table's order: mask and match of each. -/
def opcodeRows : List (Word × Word) :=
  [(0xF0FF, 0x00E0), (0xF0FF, 0x00EE), (0xF000, 0x1000), (0xF000, 0x2000), (0xF000, 0x3000),
   (0xF000, 0x4000), (0xF000, 0x5000), (0xF000, 0x6000), (0xF000, 0x7000), (0xF00F, 0x8000),
   (0xF00F, 0x8001)] ++
  [(0xF00F, 0x8002), (0xF00F, 0x8003), (0xF00F, 0x8004), (0xF00F, 0x8005), (0xF00F, 0x8006),
   (0xF00F, 0x8007), (0xF00F, 0x800E), (0xF000, 0x9000), (0xF000, 0xA000), (0xF000, 0xC000),
   (0xF000, 0xD000)] ++
  [(0xF0FF, 0xE09E), (0xF0FF, 0xE0A1), (0xF0FF, 0xF007), (0xF0FF, 0xF015), (0xF0FF, 0xF018),
   (0xF0FF, 0xF01E), (0xF0FF, 0xF029), (0xF0FF, 0xF033), (0xF0FF, 0xF055), (0xF0FF, 0xF065),
   (0xF0FF, 0xF00A)]

end Sys2Proof
end

