-- ==== Sys2Proof/Config.lean ====
section
/-! DEFINITION. What an implementation fixes (spec/00_scope.md R5) and the free values: the
parameters of the machine and the inputs the host may choose. -/

namespace Sys2Proof

/-- The inputs of one step (spec/10_state.md R40), with one bit for the host's only other action. -/
structure StepInput where
  /-- `dt`: the time since the previous step, never negative (R40, decision D26) -/
  elapsed : Seconds
  /-- `keys`: bit `k` is 1 when the key with value `k` is held down (R40, R180) -/
  keys : BitVec 16
  /-- `rnd`: the random byte of `Cxnn` (R40, R132) -/
  rnd : Byte
  /-- the host calls `Present()` between the previous step and this one (R45; assumption log 2) -/
  presents : Bool
  deriving DecidableEq, Repr, Inhabited

/-- FREE VALUE: the inputs the host gives where `State` lists none, by the count of such steps
(R40: any `dt >= 0`, any keys, any byte; decision D16; assumption log 1). -/
opaque Config.hostInput : Nat → StepInput

/-- OPEN parameter `FONT_BASE` (R5, R60, decision D4; assumption log 5): the type is the constraint
`FONT_BASE + 80 <= 0x200`, nothing else is known of it. -/
opaque Config.fontBase : Fin 433

/-- OPEN parameter `TIMERS_RUN_DURING_KEYWAIT` (R5, R41, decision D13; assumption log 6). -/
opaque Config.timersRunDuringKeyWait : Bool

end Sys2Proof
end

