-- ==== Sys2Proof/Machine/State.lean ====
section
/-! DEFINITION. The state of the machine (spec/10_state.md R20 to R47), its reset value (R39) and the
reasons a step or the boot can stop. -/

namespace Sys2Proof.Machine

/-- Memory: the bytes that differ from 0x00, by rising address (R25, R50; assumption log 8). -/
abbrev Memory := List Host.Cell

/-- The framebuffer: 32 rows of 64 pixels, row 0 at the top, column 0 at the left (R34). -/
abbrev Frame := Vector (Vector Bool 64) 32

/-- The causes of a fatal fault, each with the `info` that R200 records for it. -/
inductive FaultCause where
  /-- code 1: `00EE` with an empty call stack; no info (R200, R201) -/
  | stackUnderflow
  /-- code 2: an access above address 4095; the offending address (R200, R202) -/
  | memOutOfBounds (addr : Nat)
  /-- code 3: `2nnn` with a full call stack; the value that could not be pushed (R200, R205) -/
  | stackOverflow (value : Addr)
  deriving DecidableEq, Repr

/-- The `fault` record `(cause, info, fault_addr)`; `info` is the cause's own (R37, R200). -/
structure FaultRecord where
  /-- the cause with its info -/
  cause : FaultCause
  /-- `fault_addr`: the address of the instruction, or of the fetch, that faulted (R200) -/
  faultAddr : Addr
  deriving DecidableEq, Repr

/-- The output events of a step, at most one a step (R40, R200). -/
inductive Event where
  /-- code 0: the non-fatal diagnostic `UnknownInstruction(w, a)` (R200, R203) -/
  | unknownInstruction (w : Word) (a : Addr)
  /-- a fatal fault, as recorded in `fault` (R200, R204) -/
  | fault (r : FaultRecord)
  deriving DecidableEq, Repr

/-- The model's view of the host's side of the step interface: inputs and outputs, no storage of the
machine (R38, R40, R45; assumption log 1, 2 and 3). -/
structure HostPort where
  /-- the inputs of the step under way, constant through it (R40, decision D22) -/
  sample : StepInput
  /-- the inputs of the coming steps, the next first; when there is none the input is free -/
  pending : List StepInput
  /-- how many inputs were taken from `Config.hostInput` -/
  sampleNo : Nat
  /-- the event the last step output (R40) -/
  event : Option Event
  /-- the copy of the framebuffer that `Present()` output just before the last step (R45) -/
  frame : Option Frame
  deriving DecidableEq, Repr

/-- The state of the machine. The fields carry the spec's names. -/
structure State where
  /-- the general registers `V[0]` to `V[15]` (R20) -/
  V : Vector Byte 16
  /-- the index register (R22) -/
  I : Addr
  /-- the program counter (R23) -/
  pc : Addr
  /-- the 4096 bytes of memory (R25) -/
  mem : Memory
  /-- the call stack, top entry first; `sp` is its length (R26) -/
  stack : List Addr
  /-- the delay timer's count (R30) -/
  DT : Byte
  /-- the delay timer's accumulator `DT_acc` (R30) -/
  DTacc : Seconds
  /-- the sound timer's count (R31) -/
  ST : Byte
  /-- the sound timer's accumulator `ST_acc` (R31) -/
  STacc : Seconds
  /-- the framebuffer (R34) -/
  fb : Frame
  /-- the framebuffer changed since it was last presented (R35) -/
  dirty : Bool
  /-- the key wait is on (R36) -/
  awaiting : Bool
  /-- the register the key wait will write, `wait_reg` (R36) -/
  waitReg : Reg
  /-- a fatal fault was raised (R37) -/
  halted : Bool
  /-- what it was; meaningful while `halted` (R37) -/
  fault : Option FaultRecord
  /-- the host's side of the interface: the model's own field -/
  port : HostPort
  deriving DecidableEq, Repr

/-- Why the machine stops outside the spec's own halted state. The spec's fatal faults are next
states (R204; assumption log 4), so no step raises any. -/
inductive Fault where
  /-- Raised by `State.boot` and `State.bootWith` alone, never by a step: the program image is longer
  than 3584 bytes ("fatal at load time, before execution begins", R218). Safe: such a core is never
  started. -/
  | imageTooLong (length : Nat)
  deriving DecidableEq, Repr

/-- Why a step gives an instruction no meaning. -/
inductive Refusal where
  /-- Raised by an arm of `exec` whose instruction has no meaning yet; safe. No arm of this model
  raises it: every row of the table has its meaning. -/
  | notModelled (mnemonic : String)
  deriving DecidableEq, Repr

/-- The host's side right after reset: nothing lined up, nothing output (assumption log 1). -/
def HostPort.reset : HostPort where
  sample := { elapsed := ⟨0, 0⟩, keys := 0, rnd := 0, presents := false }
  pending := []
  sampleNo := 0
  event := none
  frame := none

/-- The state right after reset, before the boot-time load (R39, R230, R231; decision D6). -/
def State.reset : State where
  V := Vector.replicate 16 0x00
  I := 0x0000
  pc := 0x0200
  mem := []
  stack := []
  DT := 0
  DTacc := ⟨0, 0⟩
  ST := 0
  STacc := ⟨0, 0⟩
  fb := Vector.replicate 32 (Vector.replicate 64 false)
  dirty := false
  awaiting := false
  waitReg := 0
  halted := false
  fault := none
  port := HostPort.reset

end Sys2Proof.Machine
end

