-- ==== Sys2Proof/Machine/Params.lean ====
section
/-! DEFINITION. The parameters of spec/00_scope.md R5 that have a value, each in one place. -/

namespace Sys2Proof

/-- `STACK_DEPTH` (R5, R28, decision D3; assumption log 11). -/
def Config.stackDepth : Nat := 16

/-- `MEM_SIZE` (R5, R50). -/
def Config.memSize : Nat := 4096

/-- `PROG_BASE`, the load address of the program image and the reset pc (R5, R62, R231). -/
def Config.progBase : Nat := 0x200

/-- The longest program image, 4096 - 512 bytes (R62, R233). -/
def Config.maxImage : Nat := 3584

/-- The glyphs 0 to 7 of the default `FONT_DATA` (R61). -/
def Config.fontDataLow : Vector Byte 40 :=
  #v[0xF0, 0x90, 0x90, 0x90, 0xF0, 0x20, 0x60, 0x20, 0x20, 0x70,
   0xF0, 0x10, 0xF0, 0x80, 0xF0, 0xF0, 0x10, 0xF0, 0x10, 0xF0,
   0x90, 0x90, 0xF0, 0x10, 0x10, 0xF0, 0x80, 0xF0, 0x10, 0xF0,
   0xF0, 0x80, 0xF0, 0x90, 0xF0, 0xF0, 0x10, 0x20, 0x40, 0x40]

/-- The glyphs 8 to F of the default `FONT_DATA` (R61). -/
def Config.fontDataHigh : Vector Byte 40 :=
  #v[0xF0, 0x90, 0xF0, 0x90, 0xF0, 0xF0, 0x90, 0xF0, 0x10, 0xF0,
   0xF0, 0x90, 0xF0, 0x90, 0x90, 0xE0, 0x90, 0xE0, 0x90, 0xE0,
   0xF0, 0x80, 0x80, 0x80, 0xF0, 0xE0, 0x90, 0x90, 0x90, 0xE0,
   0xF0, 0x80, 0xF0, 0x80, 0xF0, 0xF0, 0x80, 0xF0, 0x80, 0x80]

/-- Default of the parameter `FONT_DATA` (R61, decision D5). PRESUMED: the bytes come from general
knowledge, as the spec says itself; only `State.boot` uses them (assumption log 10). -/
def Config.fontData : Vector Byte 80 := Config.fontDataLow ++ Config.fontDataHigh

end Sys2Proof
end

