-- ==== Sys2Proof/Machine/Time.lean ====
section
/-! DEFINITION. Exact time and the timer advance of spec/10_state.md R32. -/

namespace Sys2Proof

/-- The denominator of an amount of time. -/
def Seconds.den (t : Seconds) : Nat := t.denPred + 1

/-- `n / d` seconds in lowest terms, for `d > 0`: equal amounts of time are equal data. -/
def Seconds.ofFrac (n d : Nat) : Seconds :=
  { num := n / Nat.gcd n d, denPred := d / Nat.gcd n d - 1 }

/-- The sum of two amounts of time. -/
def Seconds.add (s t : Seconds) : Seconds :=
  Seconds.ofFrac (s.num * t.den + t.num * s.den) (s.den * t.den)

/-- `TIMER_HZ` (R5). -/
def timerHz : Nat := 60

/-- `floor(t * 60)`: the complete ticks in an amount of time (R32). -/
def Seconds.ticks (t : Seconds) : Nat := t.num * timerHz / t.den

/-- `t - floor(t * 60) / 60`: the time left over after the complete ticks (R32). -/
def Seconds.leftover (t : Seconds) : Seconds :=
  Seconds.ofFrac (t.num * timerHz % t.den) (timerHz * t.den)

/-- `count - min(count, ticks)`: a count goes down and stops at 0 (R32). -/
def countDown (count : Byte) (ticks : Nat) : Byte :=
  BitVec.ofNat 8 (count.toNat - min count.toNat ticks)

/-- `TimerAdvance(count, acc, dt)` (R32): the new count and the new accumulator. -/
def timerAdvance (count : Byte) (acc dt : Seconds) : Byte × Seconds :=
  let t := acc.add dt
  (countDown count t.ticks, t.leftover)

end Sys2Proof
end

