-- ==== Sys2Proof/Machine/Ops.lean ====
section
/-! DEFINITION. The named operations on the state: registers, memory, call stack, faults, fetch,
timers and the host's turn. -/

namespace Sys2Proof.Machine

/-! ### General registers (R20) -/

/-- `V[r]` (R7). -/
def State.readReg (s : State) (r : Reg) : Byte := s.V.get r

/-- `V[r] <- b` (R7). -/
def State.writeReg (s : State) (r : Reg) (b : Byte) : State :=
  { s with V := s.V.set r.val b r.isLt }

/-! ### The stores that one instruction family writes (R46, R47) -/

/-- `I <- a` (R22). -/
def State.setI (s : State) (a : Addr) : State := { s with I := a }

/-- The state with another memory. -/
def State.setMem (s : State) (m : Memory) : State := { s with mem := m }

/-- The state with another call stack. -/
def State.setStack (s : State) (l : List Addr) : State := { s with stack := l }

/-- `DT <- b`; the accumulator stays (R186). -/
def State.setDT (s : State) (b : Byte) : State := { s with DT := b }

/-- `ST <- b`; the accumulator stays (R187). -/
def State.setST (s : State) (b : Byte) : State := { s with ST := b }

/-- The framebuffer a display instruction leaves, with `dirty <- 1` (R161, R163). -/
def State.setDisplay (s : State) (f : Frame) : State := { s with fb := f, dirty := true }

/-- `awaiting <- 1; wait_reg <- x` (R183). -/
def State.beginWait (s : State) (x : Reg) : State := { s with awaiting := true, waitReg := x }

/-- `awaiting <- 0` (R42). -/
def State.endWait (s : State) : State := { s with awaiting := false }

/-! ### Memory (R50 to R53) -/

/-- What an address that is not listed reads as: memory is "zero-initialized" (R25, R39). -/
def unlistedByte : Byte := 0x00

/-- The byte at an address of a memory. -/
def Memory.byte : Memory → Nat → Byte
  | [], _ => unlistedByte
  | (b, v) :: rest, a => if a = b then v else Memory.byte rest a

/-- A list with the cell in front, unless the cell holds what an unlisted address reads as. -/
def Memory.cons (a : Nat) (v : Byte) (rest : Memory) : Memory :=
  if v = unlistedByte then rest else (a, v) :: rest

/-- The memory with one byte changed, in canonical form. -/
def Memory.setByte : Memory → Nat → Byte → Memory
  | [], a, v => Memory.cons a v []
  | (b, u) :: rest, a, v =>
    if a < b then Memory.cons a v ((b, u) :: rest)
    else if a = b then Memory.cons a v rest
    else (b, u) :: Memory.setByte rest a v

/-- The cells from some address on: strictly rising addresses below 4096, no cell equal to what an
unlisted address reads as. -/
def Memory.wfFrom : Nat → Memory → Bool
  | _, [] => true
  | lo, (b, v) :: rest =>
    decide (lo ≤ b) && decide (b < Config.memSize) && decide (v ≠ unlistedByte)
      && Memory.wfFrom (b + 1) rest

/-- The canonical form of memory: equal memories are equal lists. -/
def Memory.wf (m : Memory) : Bool := Memory.wfFrom 0 m

/-- An effective address is inside memory (R51: compared with 4095, never wrapped). -/
def inMemory (addr : Nat) : Bool := decide (addr < Config.memSize)

/-- `MemRead(addr, 1)` (R52). -/
def State.memRead (s : State) (addr : Nat) : Except FaultCause Byte :=
  if inMemory addr then .ok (Memory.byte s.mem addr) else .error (.memOutOfBounds addr)

/-- `MemWrite(addr, 1, v)` (R53). -/
def State.memWrite (s : State) (addr : Nat) (v : Byte) : Except FaultCause State :=
  if inMemory addr then .ok (s.setMem (Memory.setByte s.mem addr v))
  else .error (.memOutOfBounds addr)

/-! ### Faults (R200 to R205) -/

/-- The numeric code of a cause (R200). -/
def FaultCause.code : FaultCause → Nat
  | .stackUnderflow => 1
  | .memOutOfBounds _ => 2
  | .stackOverflow _ => 3

/-- The `info` recorded with a cause (R200). -/
def FaultCause.info : FaultCause → Option Nat
  | .stackUnderflow => none
  | .memOutOfBounds addr => some addr
  | .stackOverflow value => some value.toNat

/-- TAKING A FATAL FAULT, `raise` (R204): the machine halts and records the fault, and outputs it as
the step's event. Nothing else changes; no control is transferred and nothing returns from it
(R208, R209). -/
def State.raise (s : State) (c : FaultCause) (faultAddr : Addr) : State :=
  { s with
    halted := true
    fault := some { cause := c, faultAddr := faultAddr }
    port := { s.port with event := some (.fault { cause := c, faultAddr := faultAddr }) } }

/-- The address of the instruction being executed: `pc` is post-advance (R23, R200). -/
def State.instrAddr (s : State) : Addr := s.pc - 2

/-- `raise` during execution: `fault_addr` is `pc - 2` (R200). -/
def State.raiseHere (s : State) (c : FaultCause) : State := s.raise c s.instrAddr

/-- `diag UnknownInstruction(w, pc - 2)`: an output event and nothing else (R203). -/
def State.diagnose (s : State) (w : Word) : State :=
  { s with port := { s.port with event := some (.unknownInstruction w s.instrAddr) } }

/-! ### Call stack (R26 to R29) -/

/-- `Push(v)` (R28). -/
def State.push (s : State) (v : Addr) : Except FaultCause State :=
  if s.stack.length < Config.stackDepth then .ok (s.setStack (v :: s.stack))
  else .error (.stackOverflow v)

/-- `Pop()` (R29). -/
def State.pop (s : State) : Except FaultCause (Addr × State) :=
  match s.stack with
  | [] => .error .stackUnderflow
  | a :: rest => .ok (a, s.setStack rest)

/-! ### Program counter and fetch (R23, R43, R55) -/

/-- `pc <- target`. -/
def State.jump (s : State) (target : Addr) : State := { s with pc := target }

/-- `pc <- pc + 2`: the fetch advance (R43) and a skip (R100). -/
def State.advancePc (s : State) : State := s.jump (s.pc + 2)

/-- A skip instruction: `pc <- pc + 2` when its condition holds (R100). -/
def State.skipIf (s : State) (cond : Bool) : State :=
  { s with pc := if cond then s.pc + 2 else s.pc }

/-- `Fetch(pc)`: both bytes bounds-checked, the lower address first (R55). -/
def State.fetch (s : State) : Except FaultCause Word :=
  match s.memRead s.pc.toNat with
  | .error c => .error c
  | .ok hi =>
    match s.memRead (s.pc.toNat + 1) with
    | .error c => .error c
    | .ok lo => .ok (wordOfBytes hi lo)

/-! ### Block transfers: accesses in list order, each checked when made (R54, decision D19) -/

/-- Byte writes in order; the first out of range raises, the earlier ones stand. -/
def State.storeAll : List (Nat × Byte) → State → State
  | [], s => s
  | (a, v) :: rest, s =>
    match s.memWrite a v with
    | .ok t => State.storeAll rest t
    | .error c => s.raiseHere c

/-- Byte loads in order, each into its register; the first out of range raises, the earlier ones
stand. -/
def State.loadAll : List (Nat × Reg) → State → State
  | [], s => s
  | (a, r) :: rest, s =>
    match s.memRead a with
    | .ok b => State.loadAll rest (s.writeReg r b)
    | .error c => s.raiseHere c

/-! ### Timers (R32, R41) -/

/-- The timers run in this step (R41 line 1): always outside the key wait, and in it by the OPEN
parameter. -/
def State.timersRun (s : State) : Bool := !s.awaiting || Config.timersRunDuringKeyWait

/-- Line 1 of the step: both timers advance by the step's `dt`, or are left alone (R41). -/
def State.advanceTimers (s : State) : State :=
  let delay := timerAdvance s.DT s.DTacc s.port.sample.elapsed
  let sound := timerAdvance s.ST s.STacc s.port.sample.elapsed
  { s with
    DT := if s.timersRun then delay.1 else s.DT
    DTacc := if s.timersRun then delay.2 else s.DTacc
    ST := if s.timersRun then sound.1 else s.ST
    STacc := if s.timersRun then sound.2 else s.STacc }

/-! ### Keys (R180, R42) -/

/-- The key levels of the step (R40, R180). -/
def State.keys (s : State) : BitVec 16 := s.port.sample.keys

/-- The least key of a list that is down, the list being in rising order. -/
def firstDown (keys : BitVec 16) : List Reg → Option Reg
  | [] => none
  | k :: ks => if keys.getLsbD k.val then some k else firstDown keys ks

/-- The 16 key values (R5). -/
def allKeys : List Reg := [0, 1, 2, 3, 4, 5, 6, 7, 8, 9, 10, 11, 12, 13, 14, 15]

/-- The least `k` with `keys[k] = 1`, if any key is down (R42, decision D12). -/
def lowestKey (keys : BitVec 16) : Option Reg := firstDown keys allKeys

/-- The value of a key as a register value, `zext_8(k)` (R42). -/
def keyByte (k : Reg) : Byte := BitVec.ofNat 8 k.val

/-- `KeyWaitResolve(keys)` (R42). -/
def State.resolveKeyWait (s : State) : State :=
  match lowestKey s.keys with
  | none => s
  | some k => (s.writeReg s.waitReg (keyByte k)).endWait

/-! ### The host's turn (R10, R40, R45) -/

/-- `Present()` if the host calls it: output the framebuffer when it is dirty and clear `dirty`
(R45). -/
def State.presentIf (s : State) (calls : Bool) : State :=
  { s with
    dirty := s.dirty && !calls
    port := { s.port with frame := if calls && s.dirty then some s.fb else none } }

/-- The inputs of the coming step: the first the host has lined up, else free ones (R40). -/
def HostPort.nextInput (p : HostPort) : StepInput :=
  match p.pending with
  | [] => Config.hostInput p.sampleNo
  | x :: _ => x

/-- The port with the coming step's inputs sampled and no output yet (R40, decision D22). -/
def HostPort.sampled (p : HostPort) : HostPort :=
  { sample := p.nextInput
    pending := p.pending.tail
    sampleNo := if p.pending.isEmpty then p.sampleNo + 1 else p.sampleNo
    event := none
    frame := none }

/-- Everything that happens before the core acts in a step: the inputs are sampled, and `Present()`
is performed if the host calls it (R40, R45). -/
def State.hostTurn (s : State) : State :=
  State.presentIf { s with port := s.port.sampled } s.port.nextInput.presents

/-! ### Placing bytes (R62, R233) -/

/-- Bytes written at consecutive addresses from `a` on; a byte that would lie outside memory is
left out. -/
def Memory.setBytes : Memory → Nat → List Byte → Memory
  | m, _, [] => m
  | m, a, b :: bs =>
    Memory.setBytes (if inMemory a then Memory.setByte m a b else m) (a + 1) bs

/-- A word placed big-endian where the next fetch reads, and the core ready to fetch it (R43, R57;
assumption log 9). -/
def State.placeWord (s : State) (w : Word) : State :=
  { s with
    mem := Memory.setBytes s.mem s.pc.toNat [Word.hiByte w, Word.loByte w]
    awaiting := false
    halted := false }

/-- The boot-time load with the two parameters given: the glyph table, then the program image,
and nothing else (R233, R234); an image that is too long is refused (R218). -/
def State.bootWith (s : State) (fontBase : Fin 433) (fontData : Vector Byte 80) (image : List Byte) :
    Host.Outcome State Fault Refusal :=
  if image.length ≤ Config.maxImage then
    .next (s.setMem
      (Memory.setBytes (Memory.setBytes s.mem fontBase.val fontData.toList) Config.progBase image))
  else .fault (.imageTooLong image.length)

/-- Reset and the boot-time load of a program image (R230, R233, R234). -/
def State.boot (image : List Byte) : Host.Outcome State Fault Refusal :=
  State.reset.bootWith Config.fontBase Config.fontData image

end Sys2Proof.Machine
end

