-- ==== Sys2Proof/Machine/Operands.lean ====
section
/-! DEFINITION. The operand forms of spec/30_encoding.md R77 and the addresses of
spec/42_index_and_memory.md R146. -/

namespace Sys2Proof.Machine

/-- `zext_16(nnn)`: a 12-bit immediate as an address (R77). -/
def addrOfNNN (nnn : BitVec 12) : Addr := nnn.setWidth 16

/-- The effective address `I + k`, a natural number that never wraps (R51, R146). -/
def State.indexed (s : State) (k : Nat) : Nat := s.I.toNat + k

/-- The registers that a block transfer with operand `x` names, `V[0]` to `V[x]`, ascending
(R144, R145). -/
def regsUpTo (x : Reg) : List Reg := allKeys.take (x.val + 1)

/-- The address of the glyph of a value: `FONT_BASE + 5 * v`, the whole byte (R142). -/
def glyphAddr (v : Byte) : Addr := BitVec.ofNat 16 (Config.fontBase.val + 5 * v.toNat)

/-- The column a sprite starts at: `V[x] mod 64` (R162). -/
def startColumn (v : Byte) : Nat := v.toNat % 64

/-- The row a sprite starts at: `V[y] mod 32` (R162). -/
def startRow (v : Byte) : Nat := v.toNat % 32

/-- The decimal digits of a byte, hundreds first (R143). -/
def decimalDigits (v : Byte) : Byte × Byte × Byte :=
  (BitVec.ofNat 8 (v.toNat / 100), BitVec.ofNat 8 (v.toNat / 10 % 10), BitVec.ofNat 8 (v.toNat % 10))

/-- The key that a register value names is down; a value above 15 names none (R181, R184,
decision D14). -/
def State.keyDown (s : State) (v : Byte) : Bool := decide (v.toNat ≤ 15) && s.keys.getLsbD v.toNat

end Sys2Proof.Machine
end

