-- ==== Sys2Proof/Machine/Flags.lean ====
section
/-! DEFINITION. The results and the flag values of spec/41_load_and_alu.md R120 to R133, and the
order in which they are written. -/

namespace Sys2Proof.Machine

/-- A flag as the value written to VF: 1 or 0 (R127). -/
def flagByte (b : Bool) : Byte := if b then 1 else 0

/-- Carry out of an addition: the widened sum exceeds 255 (R127). -/
def carryOut (a b : Byte) : Bool := decide (a.toNat + b.toNat > 255)

/-- The flag of a subtraction `a - b`: strictly greater (R128, R130). -/
def strictlyGreater (a b : Byte) : Bool := decide (a.toNat > b.toNat)

/-- The bit a right shift by one shifts out (R129). -/
def bitOutRight (a : Byte) : Bool := a.getLsbD 0

/-- The bit a left shift by one shifts out (R131). -/
def bitOutLeft (a : Byte) : Bool := a.getLsbD 7

/-- `V[15] <- flag; V[x] <- result`, in this order, so that at `x = 15` the result stays (R120,
decision D7). -/
def State.writeFlagThen (s : State) (flag : Bool) (x : Reg) (result : Byte) : State :=
  (s.writeReg flagReg (flagByte flag)).writeReg x result

end Sys2Proof.Machine
end

