-- ==== Sys2Proof/Machine/ControlFlow.lean ====
section
/-! DEFINITION. The control transfer instructions of spec/40_control_flow.md. In every meaning `pc` is
the post-advance pc (R23). -/

namespace Sys2Proof.Machine

/-- `00EE` RET (R101): `pc <- Pop()`; on an empty stack `StackUnderflow`. -/
def execRet (s : State) : Host.Outcome State Fault Refusal :=
  .next (match s.pop with
    | .ok (a, t) => t.jump a
    | .error c => s.raiseHere c)

/-- `1nnn` JP (R102): `pc <- zext_16(nnn)`. -/
def execJp (nnn : BitVec 12) (s : State) : Host.Outcome State Fault Refusal :=
  .next (s.jump (addrOfNNN nnn))

/-- `2nnn` CALL (R103): `Push(pc); pc <- zext_16(nnn)`; on a full stack `StackOverflow(pc)`. -/
def execCall (nnn : BitVec 12) (s : State) : Host.Outcome State Fault Refusal :=
  .next (match s.push s.pc with
    | .ok t => t.jump (addrOfNNN nnn)
    | .error c => s.raiseHere c)

/-- `3xnn` SE Vx, nn (R104). -/
def execSeImm (x : Reg) (nn : Byte) (s : State) : Host.Outcome State Fault Refusal :=
  .next (s.skipIf (s.readReg x == nn))

/-- `4xnn` SNE Vx, nn (R105). -/
def execSneImm (x : Reg) (nn : Byte) (s : State) : Host.Outcome State Fault Refusal :=
  .next (s.skipIf (s.readReg x != nn))

/-- `5xy0` SE Vx, Vy (R106). -/
def execSeReg (x y : Reg) (s : State) : Host.Outcome State Fault Refusal :=
  .next (s.skipIf (s.readReg x == s.readReg y))

/-- `9xy0` SNE Vx, Vy (R107). -/
def execSneReg (x y : Reg) (s : State) : Host.Outcome State Fault Refusal :=
  .next (s.skipIf (s.readReg x != s.readReg y))

end Sys2Proof.Machine
end

