-- ==== Sys2Proof/Machine/Display.lean ====
section
/-! DEFINITION. The display instructions and the sprite engine of spec/43_display.md. -/

namespace Sys2Proof.Machine

/-- `fb[row][col]` (R34). -/
def Frame.pixel (f : Frame) (row : Fin 32) (col : Fin 64) : Bool := (f.get row).get col

/-- `fb[row][col] <- fb[row][col] ^ 1` (R162). -/
def Frame.flip (f : Frame) (row : Fin 32) (col : Fin 64) : Frame :=
  f.set row.val ((f.get row).set col.val (!Frame.pixel f row col) col.isLt) row.isLt

/-- The framebuffer with every pixel 0 (R161). -/
def Frame.blank : Frame := Vector.replicate 32 (Vector.replicate 64 false)

/-- What a draw changes on its way: the framebuffer and the collision flag (R162). -/
structure Canvas where
  /-- the framebuffer so far -/
  fb : Frame
  /-- some set pixel was unset so far -/
  collision : Bool
  deriving DecidableEq, Repr

/-- A sprite bit of 1 over a pixel: the pixel is inverted, and a set pixel is a collision (R162). -/
def Canvas.hit (k : Canvas) (row : Fin 32) (col : Fin 64) : Canvas :=
  { fb := Frame.flip k.fb row col, collision := k.collision || Frame.pixel k.fb row col }

/-- Bit `7 - c` of a sprite byte, its pixel in column `c` (R160). -/
def spriteBit (b : Byte) (c : Nat) : Bool := b.getLsbD (7 - c)

/-- The inner loop of R162 over the given sprite columns: a column past 63 ends the row. -/
def drawColumns (b : Byte) (row : Fin 32) (x0 : Nat) : List Nat → Canvas → Canvas
  | [], k => k
  | c :: cs, k =>
    if h : x0 + c < 64 then
      drawColumns b row x0 cs (if spriteBit b c then k.hit row ⟨x0 + c, h⟩ else k)
    else k

/-- The eight columns of a sprite row, left to right (R160). -/
def spriteColumns : List Nat := [0, 1, 2, 3, 4, 5, 6, 7]

/-- The outer loop of R162 over the given sprite rows: a row past 31 ends the draw. The eager check
of `spriteFault` has passed, so the read of the row's byte is in range. -/
def drawRows (mem : Memory) (base x0 y0 : Nat) : List Nat → Canvas → Canvas
  | [], k => k
  | r :: rs, k =>
    if h : y0 + r < 32 then
      drawRows mem base x0 y0 rs
        (drawColumns (Memory.byte mem (base + r)) ⟨y0 + r, h⟩ x0 spriteColumns k)
    else k

/-- The eager bounds check of the whole sprite (R162, decision D11): the lowest address out of range
among `I` to `I + n - 1`, if any. -/
def spriteFault (base n : Nat) : Option Nat :=
  if 0 < n ∧ Config.memSize < base + n then some (max base Config.memSize) else none

/-- The canvas after the draw of `Dxyn` on a state. -/
def State.drawn (s : State) (x y : Reg) (n : Nibble) : Canvas :=
  drawRows s.mem s.I.toNat (startColumn (s.readReg x)) (startRow (s.readReg y)) (List.range n.toNat)
    { fb := s.fb, collision := false }

/-- `Dxyn` DRW Vx, Vy, n (R162, R163). -/
def execDrw (x y : Reg) (n : Nibble) (s : State) : Host.Outcome State Fault Refusal :=
  .next (match spriteFault s.I.toNat n.toNat with
    | some addr => s.raiseHere (.memOutOfBounds addr)
    | none =>
      (s.writeReg flagReg (flagByte (s.drawn x y n).collision)).setDisplay (s.drawn x y n).fb)

/-- `00E0` CLS (R161). -/
def execCls (s : State) : Host.Outcome State Fault Refusal :=
  .next (s.setDisplay Frame.blank)

end Sys2Proof.Machine
end

