-- ==== Sys2Proof/Machine/IndexMemory.lean ====
section
/-! DEFINITION. The index register and memory instructions of spec/42_index_and_memory.md. None but
`Annn`, `Fx1E` and `Fx29` writes I. -/

namespace Sys2Proof.Machine

/-- `Annn` LD I, nnn (R140). -/
def execLdI (nnn : BitVec 12) (s : State) : Host.Outcome State Fault Refusal :=
  .next (s.setI (addrOfNNN nnn))

/-- `Fx1E` ADD I, Vx (R141): modulo 65536, no flag, no bounds check. -/
def execAddI (x : Reg) (s : State) : Host.Outcome State Fault Refusal :=
  .next (s.setI (s.I + (s.readReg x).setWidth 16))

/-- `Fx29` LD F, Vx (R142). -/
def execLdGlyph (x : Reg) (s : State) : Host.Outcome State Fault Refusal :=
  .next (s.setI (glyphAddr (s.readReg x)))

/-- The three writes of `Fx33`, in order (R143). -/
def digitStores (x : Reg) (s : State) : List (Nat × Byte) :=
  [(s.indexed 0, (decimalDigits (s.readReg x)).1),
   (s.indexed 1, (decimalDigits (s.readReg x)).2.1),
   (s.indexed 2, (decimalDigits (s.readReg x)).2.2)]

/-- `Fx33` LD B, Vx (R143). -/
def execLdDigits (x : Reg) (s : State) : Host.Outcome State Fault Refusal :=
  .next (State.storeAll (digitStores x s) s)

/-- `Fx55` LD [I], Vx (R144): `mem[I + i] <- V[i]` for `i` from 0 to x. -/
def execStoreRegs (x : Reg) (s : State) : Host.Outcome State Fault Refusal :=
  .next (State.storeAll ((regsUpTo x).map fun r => (s.indexed r.val, s.readReg r)) s)

/-- `Fx65` LD Vx, [I] (R145): `V[i] <- mem[I + i]` for `i` from 0 to x. -/
def execLoadRegs (x : Reg) (s : State) : Host.Outcome State Fault Refusal :=
  .next (State.loadAll ((regsUpTo x).map fun r => (s.indexed r.val, r)) s)

end Sys2Proof.Machine
end

