-- ==== Sys2Proof/Machine/KeypadTimers.lean ====
section
/-! DEFINITION. The keypad and timer instructions of spec/44_keypad_and_timers.md. -/

namespace Sys2Proof.Machine

/-- `Ex9E` SKP Vx (R181, R184). -/
def execSkp (x : Reg) (s : State) : Host.Outcome State Fault Refusal :=
  .next (s.skipIf (s.keyDown (s.readReg x)))

/-- `ExA1` SKNP Vx (R182, R184). -/
def execSknp (x : Reg) (s : State) : Host.Outcome State Fault Refusal :=
  .next (s.skipIf (!s.keyDown (s.readReg x)))

/-- `Fx0A` LD Vx, K (R183): a key that is down completes it at once, else the key wait begins. -/
def execWaitKey (x : Reg) (s : State) : Host.Outcome State Fault Refusal :=
  .next (match lowestKey s.keys with
    | some k => s.writeReg x (keyByte k)
    | none => s.beginWait x)

/-- `Fx07` LD Vx, DT (R185). -/
def execLdRegDT (x : Reg) (s : State) : Host.Outcome State Fault Refusal :=
  .next (s.writeReg x s.DT)

/-- `Fx15` LD DT, Vx (R186): the accumulator stays. -/
def execLdDTReg (x : Reg) (s : State) : Host.Outcome State Fault Refusal :=
  .next (s.setDT (s.readReg x))

/-- `Fx18` LD ST, Vx (R187): the accumulator stays. -/
def execLdSTReg (x : Reg) (s : State) : Host.Outcome State Fault Refusal :=
  .next (s.setST (s.readReg x))

end Sys2Proof.Machine
end

