-- ==== Sys2Proof/Machine/LoadAlu.lean ====
section
/-! DEFINITION. The register load and ALU instructions of spec/41_load_and_alu.md. None raises a
fault. -/

namespace Sys2Proof.Machine

/-- `6xnn` LD Vx, nn (R121). -/
def execLdImm (x : Reg) (nn : Byte) (s : State) : Host.Outcome State Fault Refusal :=
  .next (s.writeReg x nn)

/-- `7xnn` ADD Vx, nn (R122): modulo 256, no flag. -/
def execAddImm (x : Reg) (nn : Byte) (s : State) : Host.Outcome State Fault Refusal :=
  .next (s.writeReg x (s.readReg x + nn))

/-- `8xy0` LD Vx, Vy (R123). -/
def execLdReg (x y : Reg) (s : State) : Host.Outcome State Fault Refusal :=
  .next (s.writeReg x (s.readReg y))

/-- `8xy1` OR Vx, Vy (R124): no flag. -/
def execOr (x y : Reg) (s : State) : Host.Outcome State Fault Refusal :=
  .next (s.writeReg x (s.readReg x ||| s.readReg y))

/-- `8xy2` AND Vx, Vy (R125): no flag. -/
def execAnd (x y : Reg) (s : State) : Host.Outcome State Fault Refusal :=
  .next (s.writeReg x (s.readReg x &&& s.readReg y))

/-- `8xy3` XOR Vx, Vy (R126): no flag. -/
def execXor (x y : Reg) (s : State) : Host.Outcome State Fault Refusal :=
  .next (s.writeReg x (s.readReg x ^^^ s.readReg y))

/-- `8xy4` ADD Vx, Vy (R127): VF is the carry out. -/
def execAddReg (x y : Reg) (s : State) : Host.Outcome State Fault Refusal :=
  .next (s.writeFlagThen (carryOut (s.readReg x) (s.readReg y)) x (s.readReg x + s.readReg y))

/-- `8xy5` SUB Vx, Vy (R128): VF is 1 exactly when Vx is strictly greater. -/
def execSubReg (x y : Reg) (s : State) : Host.Outcome State Fault Refusal :=
  .next (s.writeFlagThen (strictlyGreater (s.readReg x) (s.readReg y)) x (s.readReg x - s.readReg y))

/-- `8xy6` SHR Vx (R129): VF is the old bit 0; `V[y]` is not read. -/
def execShr (x : Reg) (s : State) : Host.Outcome State Fault Refusal :=
  .next (s.writeFlagThen (bitOutRight (s.readReg x)) x (s.readReg x >>> 1))

/-- `8xy7` SUBN Vx, Vy (R130): VF is 1 exactly when Vy is strictly greater. -/
def execSubnReg (x y : Reg) (s : State) : Host.Outcome State Fault Refusal :=
  .next (s.writeFlagThen (strictlyGreater (s.readReg y) (s.readReg x)) x (s.readReg y - s.readReg x))

/-- `8xyE` SHL Vx (R131): VF is the old bit 7; `V[y]` is not read. -/
def execShl (x : Reg) (s : State) : Host.Outcome State Fault Refusal :=
  .next (s.writeFlagThen (bitOutLeft (s.readReg x)) x (s.readReg x <<< 1))

/-- `Cxnn` RND Vx, nn (R132): the step's random byte masked by `nn`. -/
def execRnd (x : Reg) (nn : Byte) (s : State) : Host.Outcome State Fault Refusal :=
  .next (s.writeReg x (nn &&& s.port.sample.rnd))

end Sys2Proof.Machine
end

