-- ==== Sys2Proof/Machine/Cycle.lean ====
section
/-! DEFINITION. The step of spec/10_state.md R41, line by line. Machine/Step.lean only calls it. -/

namespace Sys2Proof.Machine

/-- Line 4 of R41: decode the word and execute the instruction, or run the unknown-instruction rule
(R72, R78, R203). `pc` is post-advance. -/
def State.runWord (s : State) (w : Word) : Host.Outcome State Fault Refusal :=
  match decodeWord w with
  | .ok i => exec i s
  | .error _ => .next (s.diagnose w)

/-- Lines 3 and 4 of R41: fetch, advance the pc, execute. A fetch that is out of bounds raises with
`pc` not advanced and `fault_addr = pc` (R43, R200). -/
def State.fetchAndRun (s : State) : Host.Outcome State Fault Refusal :=
  match s.fetch with
  | .ok w => s.advancePc.runWord w
  | .error c => .next (s.raise c s.pc)

/-- `Step` once its inputs are sampled (R41): nothing when halted; the key wait when awaiting, with
no fetch; otherwise one instruction. -/
def State.coreTurn (s : State) : Host.Outcome State Fault Refusal :=
  if s.halted then .next s
  else if s.awaiting then .next s.advanceTimers.resolveKeyWait
  else s.advanceTimers.fetchAndRun

/-- One step of the machine: the host's turn, then the core's (R10, R40, R41). -/
def State.cycle (s : State) : Host.Outcome State Fault Refusal := s.hostTurn.coreTurn

end Sys2Proof.Machine
end

