-- ==== Sys2Proof/Machine/Step.lean ====
section
/-! DEFINITION. The step of the machine (spec/10_state.md R41) and the placing of one instruction
word for it. -/

namespace Sys2Proof.Machine

/-- One `Step` (R41). -/
def step (s : State) : Host.Outcome State Fault Refusal := s.cycle

/-- The state with one instruction word stored where `step` fetches next. Bit 0 of `w` is bit 0 of
the 16-bit word and bits at and above `nbits` are 0 (assumption log 9). -/
def State.withFetchWord (s : State) (nbits w : Nat) : State :=
  s.placeWord (BitVec.ofNat 16 (w % 2 ^ nbits))

end Sys2Proof.Machine
end

