-- ==== Sys2Proof/Safety.lean ====
section
/-! DEFINITION. What counts as a safe run, and the invariants of the reachable states. -/

namespace Sys2Proof

/-- The amount of time as a rational number of seconds (R30). -/
def Seconds.toRat (t : Seconds) : ℚ := (t.num : ℚ) / (t.den : ℚ)

/-- An accumulator holds less than one tick (R30: `0 <= acc < 1/60`). -/
def Seconds.belowTick (t : Seconds) : Prop := t.num * timerHz < t.den

end Sys2Proof

namespace Sys2Proof.Machine

/-- A run is safe as long as no fatal fault was raised ("a halted state is never a successful end of
a run", R204). -/
def State.safe (s : State) : Bool := !s.halted

/-- The program counter and the stack entries stay in their ranges (R24), and the stack within its
depth (R26). -/
structure State.PcInv (s : State) : Prop where
  pc_le : s.pc.toNat ≤ 0x1002
  entries_le : ∀ a ∈ s.stack, a.toNat ≤ 0x1000
  depth_le : s.stack.length ≤ Config.stackDepth

/-- The accumulators hold less than one tick each and are equal (R30, R33). -/
structure State.TimerInv (s : State) : Prop where
  delay_below : Seconds.belowTick s.DTacc
  sound_below : Seconds.belowTick s.STacc
  equal : s.DTacc = s.STacc

/-- The fault record is there exactly when the machine is halted, and then no key wait is on (R37,
R39, R204: a halted core resolves no wait, and a waiting core raises nothing, R207). -/
structure State.FaultInv (s : State) : Prop where
  recorded : s.halted = s.fault.isSome
  not_waiting : s.halted = true → s.awaiting = false

/-- The whole invariant: memory canonical, pc, stack, timers and fault record as above. -/
structure State.Inv (s : State) : Prop where
  mem : Memory.wf s.mem = true
  control : s.PcInv
  timers : s.TimerInv
  faults : s.FaultInv

/-! ### Frames: the parts of the state that an instruction leaves unchanged -/

/-- The parts of the state that a frame names. -/
inductive Part where
  /-- the registers `V[0]` to `V[15]` -/
  | regs
  /-- the index register -/
  | index
  /-- the program counter -/
  | pc
  /-- every byte of memory -/
  | memory
  /-- the call stack -/
  | stack
  /-- `DT` -/
  | delay
  /-- `ST` -/
  | sound
  /-- `DT_acc` and `ST_acc` -/
  | accumulators
  /-- every pixel of the framebuffer -/
  | pixels
  /-- the dirty flag -/
  | dirty
  /-- `awaiting` and `wait_reg` -/
  | keyWait
  /-- `halted` and `fault` -/
  | faults
  /-- the host's side of the interface -/
  | port
  deriving DecidableEq, Repr

/-- The part is the same in both states: registers, bytes and pixels one by one. -/
def Part.same (s t : State) : Part → Prop
  | .regs => ∀ r, t.readReg r = s.readReg r
  | .index => t.I = s.I
  | .pc => t.pc = s.pc
  | .memory => ∀ a, Memory.byte t.mem a = Memory.byte s.mem a
  | .stack => t.stack = s.stack
  | .delay => t.DT = s.DT
  | .sound => t.ST = s.ST
  | .accumulators => t.DTacc = s.DTacc ∧ t.STacc = s.STacc
  | .pixels => ∀ r c, Frame.pixel t.fb r c = Frame.pixel s.fb r c
  | .dirty => t.dirty = s.dirty
  | .keyWait => t.awaiting = s.awaiting ∧ t.waitReg = s.waitReg
  | .faults => t.halted = s.halted ∧ t.fault = s.fault
  | .port => t.port = s.port

/-- Every part but the listed ones is the same in both states. -/
def UnchangedExcept (ps : List Part) (s t : State) : Prop := ∀ p, p ∉ ps → Part.same s t p

/-- The machine has taken a fatal fault with this cause and fault address, and output it (R200,
R204); the rest of the host's side is as it was. -/
def TookFault (c : FaultCause) (faultAddr : Addr) (s t : State) : Prop :=
  t.halted = true ∧ t.fault = some { cause := c, faultAddr := faultAddr } ∧
    t.port = { s.port with event := some (.fault { cause := c, faultAddr := faultAddr }) }

/-- The next step fetches and executes this instruction: the machine is neither halted nor waiting, both
bytes at pc are in memory, and they decode to it (R41, R43, R55). -/
def State.Runs (s : State) (i : Instr) : Prop :=
  s.halted = false ∧ s.awaiting = false ∧ s.pc.toNat + 1 ≤ 4095 ∧
    decode [Memory.byte s.mem s.pc.toNat, Memory.byte s.mem (s.pc.toNat + 1)] = .ok (i, [])

/-- `k` is the least key that is down (R42). -/
def LeastKeyDown (keys : BitVec 16) (k : Reg) : Prop :=
  keys.getLsbD k.val = true ∧ ∀ j : Reg, j < k → keys.getLsbD j.val = false

/-- The sprite of `Dxyn` has a drawn 1 bit over the pixel: the pixel is inside the clip window of
R164(a) and the sprite's bit for it is 1 (R160). -/
def SpriteBitOn (s : State) (x y : Reg) (n : Nibble) (row : Fin 32) (col : Fin 64) : Prop :=
  (s.readReg y).toNat % 32 ≤ row.val ∧ row.val < (s.readReg y).toNat % 32 + n.toNat ∧
    (s.readReg x).toNat % 64 ≤ col.val ∧ col.val < (s.readReg x).toNat % 64 + 8 ∧
    (Memory.byte s.mem (s.I.toNat + (row.val - (s.readReg y).toNat % 32))).getLsbD
      (7 - (col.val - (s.readReg x).toNat % 64)) = true

/-- The state with other inputs sampled for the step under way. -/
def State.withSample (s : State) (x : StepInput) : State :=
  { s with port := { s.port with sample := x } }

/-- The registers an instruction may write: its destination, the registers of a block load, and VF
for the six instructions that write it as a flag (R21). -/
def Instr.mayWrite (r : Reg) : Instr → Bool
  | .cls _ => false
  | .ret _ => false
  | .jp _ => false
  | .call _ => false
  | .seImm _ _ => false
  | .sneImm _ _ => false
  | .seReg _ _ _ => false
  | .ldImm x _ => r == x
  | .addImm x _ => r == x
  | .ldReg x _ => r == x
  | .or x _ => r == x
  | .and x _ => r == x
  | .xor x _ => r == x
  | .addReg x _ => r == x || r == flagReg
  | .subReg x _ => r == x || r == flagReg
  | .shr x _ => r == x || r == flagReg
  | .subnReg x _ => r == x || r == flagReg
  | .shl x _ => r == x || r == flagReg
  | .sneReg _ _ _ => false
  | .ldI _ => false
  | .rnd x _ => r == x
  | .drw _ _ _ => r == flagReg
  | .skp _ => false
  | .sknp _ => false
  | .ldRegDT x => r == x
  | .ldDTReg _ => false
  | .ldSTReg _ => false
  | .addI _ => false
  | .ldGlyph _ => false
  | .ldDigits _ => false
  | .storeRegs _ => false
  | .loadRegs x => decide (r ≤ x)
  | .waitKey x => r == x

end Sys2Proof.Machine
end

