-- ==== Sys2Proof/Certificates/Slice0/Obligations.lean ====
section
/-! DEFINITION. The statements for the provers. Each docstring names the rule of spec/ it formalises,
and what it owes to a decision of the spec or to an entry of the assumption log. -/

open Sys2Proof Sys2Proof.Machine

/-! ### Reset and boot -/

/-- R39, R231 (the values are decision D6 but for memory): what reset leaves. -/
def Obligations.ResetLeavesTheTableOfR39 : Prop :=
  (∀ a, Memory.byte State.reset.mem a = 0x00) ∧ (∀ r, State.reset.readReg r = 0x00) ∧
    State.reset.I = 0x0000 ∧ State.reset.pc = 0x0200 ∧ State.reset.stack = [] ∧
    State.reset.DT = 0 ∧ State.reset.ST = 0 ∧ State.reset.DTacc.toRat = 0 ∧
    State.reset.STacc.toRat = 0 ∧ (∀ r c, Frame.pixel State.reset.fb r c = false) ∧
    State.reset.dirty = false ∧ State.reset.awaiting = false ∧ State.reset.waitReg = 0 ∧
    State.reset.halted = false ∧ State.reset.fault = none

/-- R233, R234, R218 (decisions D4, D24): the boot-time load writes the glyph table and the image
into the zeroed memory and changes nothing else, for every admissible FONT_BASE and FONT_DATA; an
image over 3584 bytes is refused. That `bootWith` stands for the load is the model's choice
(assumption log 9), and so is the canonical form that the memory then has (assumption log 8). -/
def Obligations.BootWritesGlyphsAndImageOnly : Prop :=
  ∀ (base : Fin 433) (font : Vector Byte 80) (image : List Byte),
    (image.length ≤ 3584 → ∃ t, State.reset.bootWith base font image = .next t ∧
      Memory.wf t.mem = true ∧ UnchangedExcept [.memory] State.reset t ∧
      (∀ j : Fin 80, Memory.byte t.mem (base.val + j.val) = font.get j) ∧
      (∀ j (h : j < image.length), Memory.byte t.mem (0x200 + j) = image[j]) ∧
      (∀ a, a < 4096 → ¬(base.val ≤ a ∧ a < base.val + 80) →
        ¬(0x200 ≤ a ∧ a < 0x200 + image.length) → Memory.byte t.mem a = 0x00)) ∧
    (3584 < image.length →
      State.reset.bootWith base font image = .fault (.imageTooLong image.length))

/-! ### Encoding -/

/-- R71: the six fields of a word, and the two bytes it has in memory. -/
def Obligations.FieldsAreTheDigitsOfTheWord : Prop :=
  ∀ w : Word, (Word.op w).toNat = w.toNat / 4096 ∧ (Word.xNibble w).toNat = w.toNat / 256 % 16 ∧
    (Word.x w).val = w.toNat / 256 % 16 ∧ (Word.yNibble w).toNat = w.toNat / 16 % 16 ∧
    (Word.y w).val = w.toNat / 16 % 16 ∧ (Word.n w).toNat = w.toNat % 16 ∧
    (Word.nn w).toNat = w.toNat % 256 ∧ (Word.nnn w).toNat = w.toNat % 4096 ∧
    (Word.nn w).toNat = (Word.y w).val * 16 + (Word.n w).toNat ∧
    (Word.nnn w).toNat = (Word.x w).val * 256 + (Word.nn w).toNat ∧
    (Word.hiByte w).toNat = (Word.op w).toNat * 16 + (Word.x w).val ∧ Word.loByte w = Word.nn w

/-- R74 and file 95: words written out from the patterns decode to their instructions. -/
def Obligations.SampleWordsDecodeAsWritten : Prop :=
  decodeWord 0x1204 = .ok (.jp 0x204) ∧ decodeWord 0x3342 = .ok (.seImm 3 0x42) ∧
    decodeWord 0x6A2F = .ok (.ldImm 10 0x2F) ∧ decodeWord 0x8125 = .ok (.subReg 1 2) ∧
    decodeWord 0xA20E = .ok (.ldI 0x20E) ∧ decodeWord 0xF155 = .ok (.storeRegs 1) ∧
    decodeWord 0xD013 = .ok (.drw 0 1 3) ∧ decodeWord 0xE39E = .ok (.skp 3) ∧
    decodeWord 0xF50A = .ok (.waitKey 5) ∧
    decodeWord 0xFFFF = .error (.unknownInstruction 0xFFFF)

/-- R70, R71, R74: every instruction is read back from its word. -/
def Obligations.DecodeOfEncodeIsTheInstruction : Prop :=
  ∀ i : Instr, decodeWord (encode i) = .ok i ∧
    ∀ rest, decode (Word.hiByte (encode i) :: Word.loByte (encode i) :: rest) = .ok (i, rest)

/-- R71, R74 with assumption log 12: a word that decodes is the word of the instruction it decodes
to, so no bit is dropped and no two words are one `Instr`. The latter is the model's choice and not
the spec's: by R76 the words `0x0xE0` are all `00E0`, and the model keeps the ignored nibbles as
operands that no meaning reads (assumption log 12). -/
def Obligations.DecodedWordIsItsEncoding : Prop :=
  ∀ (w : Word) (i : Instr), decodeWord w = .ok i → encode i = w

/-- R73, R74: the two-level dispatch and the mask and match table select the same rows, and no word
is selected by two rows. -/
def Obligations.DispatchAgreesWithTheTable : Prop :=
  (∀ (w : Word) (i : Instr), decodeWord w = .ok i → w &&& i.rowMask = i.rowMatch) ∧
    (∀ (w : Word) (p : Word × Word), p ∈ opcodeRows → w &&& p.1 = p.2 →
      ∃ i, decodeWord w = .ok i ∧ (i.rowMask, i.rowMatch) = p) ∧
    opcodeRows.length = 33

/-- R78, R79 (derived there; ignored bits by decision D8): exactly the listed words are unknown
instructions. -/
def Obligations.UnknownWordsAreThoseOfR79 : Prop :=
  ∀ w : Word, (decodeWord w = .error (.unknownInstruction w) ↔
      (w.toNat / 4096 = 0x0 ∧ w.toNat % 256 ∉ [0xE0, 0xEE]) ∨
      (w.toNat / 4096 = 0x8 ∧ w.toNat % 16 ∉ [0x0, 0x1, 0x2, 0x3, 0x4, 0x5, 0x6, 0x7, 0xE]) ∨
      w.toNat / 4096 = 0xB ∨ (w.toNat / 4096 = 0xE ∧ w.toNat % 256 ∉ [0x9E, 0xA1]) ∨
      (w.toNat / 4096 = 0xF ∧
        w.toNat % 256 ∉ [0x07, 0x0A, 0x15, 0x18, 0x1E, 0x29, 0x33, 0x55, 0x65])) ∧
    ((∃ i, decodeWord w = .ok i) ∨ decodeWord w = .error (.unknownInstruction w))

/-! ### Memory -/

/-- R52, R53: the two primitives. That a write keeps the canonical form of memory is about the
model's own form (assumption log 8) and in neither rule. -/
def Obligations.MemReadAndMemWriteAreBoundsChecked : Prop :=
  ∀ (s : State) (a : Nat) (v : Byte), Memory.wf s.mem = true →
    (a > 4095 → s.memRead a = .error (.memOutOfBounds a) ∧
      s.memWrite a v = .error (.memOutOfBounds a)) ∧
    (a ≤ 4095 → s.memRead a = .ok (Memory.byte s.mem a) ∧
      ∃ t, s.memWrite a v = .ok t ∧ Memory.byte t.mem a = v ∧
        (∀ a', a' ≠ a → Memory.byte t.mem a' = Memory.byte s.mem a') ∧
        UnchangedExcept [.memory] s t ∧ Memory.wf t.mem = true)

/-- R55, R66 (R55 by decision D18): a store is seen by the next fetch of either of its bytes. -/
def Obligations.FetchSeesTheLatestStore : Prop :=
  ∀ (s t : State) (a : Nat) (v : Byte), Memory.wf s.mem = true → s.memWrite a v = .ok t →
    s.pc.toNat + 1 ≤ 4095 →
    ∃ w, t.fetch = .ok w ∧
      Word.hiByte w = (if s.pc.toNat = a then v else Memory.byte s.mem s.pc.toNat) ∧
      Word.loByte w = (if s.pc.toNat + 1 = a then v else Memory.byte s.mem (s.pc.toNat + 1))

/-- R50, R51 with the model's form of memory (assumption log 8): two canonical memories that read
alike at every address are equal. -/
def Obligations.CanonicalMemoriesReadingAlikeAreEqual : Prop :=
  ∀ m m' : Memory, Memory.wf m = true → Memory.wf m' = true →
    (∀ a, Memory.byte m a = Memory.byte m' a) → m = m'

/-! ### Control transfer -/

/-- R102: `1nnn`. -/
def Obligations.JumpSetsPcToNNN : Prop :=
  (∀ w : Word, w &&& 0xF000 = 0x1000 → decodeWord w = .ok (.jp (Word.nnn w))) ∧
    ∀ (nnn : BitVec 12) (s : State), ∃ t, exec (.jp nnn) s = .next t ∧
      t.pc.toNat = nnn.toNat ∧ UnchangedExcept [.pc] s t

/-- R103, R28 (the bound is decision D3): `2nnn` with room on the stack. -/
def Obligations.CallPushesPcAndJumps : Prop :=
  ∀ (nnn : BitVec 12) (s : State), s.stack.length < 16 → ∃ t, exec (.call nnn) s = .next t ∧
    t.stack = s.pc :: s.stack ∧ t.pc.toNat = nnn.toNat ∧ UnchangedExcept [.pc, .stack] s t

/-- R103, R28, R205 (decisions D3, D17): `2nnn` on a full stack pushes nothing and halts. -/
def Obligations.CallOnFullStackHalts : Prop :=
  ∀ (nnn : BitVec 12) (s : State), 16 ≤ s.stack.length → ∃ t, exec (.call nnn) s = .next t ∧
    TookFault (.stackOverflow s.pc) (s.pc - 2) s t ∧ UnchangedExcept [.faults, .port] s t

/-- R101, R29: `00EE` with a call outstanding, whatever the ignored nibble (decision D8). -/
def Obligations.ReturnPopsThePc : Prop :=
  ∀ (x : Nibble) (s : State) (a : Addr) (rest : List Addr), s.stack = a :: rest →
    ∃ t, exec (.ret x) s = .next t ∧ t.pc = a ∧ t.stack = rest ∧
      UnchangedExcept [.pc, .stack] s t

/-- R101, R29, R201 (halting is decision D17): `00EE` on an empty stack halts, pc as it was. -/
def Obligations.ReturnOnEmptyStackHalts : Prop :=
  ∀ (x : Nibble) (s : State), s.stack = [] → ∃ t, exec (.ret x) s = .next t ∧
    TookFault .stackUnderflow (s.pc - 2) s t ∧ UnchangedExcept [.faults, .port] s t

/-- R27: a return from any state that holds the stack a call left goes back behind the call. -/
def Obligations.ReturnUndoesTheCall : Prop :=
  ∀ (nnn : BitVec 12) (x : Nibble) (s t u : State), s.stack.length < 16 →
    exec (.call nnn) s = .next t → u.stack = t.stack →
    ∃ v, exec (.ret x) u = .next v ∧ v.pc = s.pc ∧ v.stack = s.stack

/-- R104, R105: the skips on an immediate, `3xnn` and `4xnn`. -/
def Obligations.SkipsOnAnImmediate : Prop :=
  (∀ w : Word, (w &&& 0xF000 = 0x3000 → decodeWord w = .ok (.seImm (Word.x w) (Word.nn w))) ∧
    (w &&& 0xF000 = 0x4000 → decodeWord w = .ok (.sneImm (Word.x w) (Word.nn w)))) ∧
  ∀ (x : Reg) (nn : Byte) (s : State),
    (∃ t, exec (.seImm x nn) s = .next t ∧
      t.pc = (if s.readReg x = nn then s.pc + 2 else s.pc) ∧ UnchangedExcept [.pc] s t) ∧
    (∃ t, exec (.sneImm x nn) s = .next t ∧
      t.pc = (if s.readReg x = nn then s.pc else s.pc + 2) ∧ UnchangedExcept [.pc] s t)

/-- R106, R107: the skips on two registers, `5xy0` and `9xy0`, whatever the ignored nibble
(decision D8). -/
def Obligations.SkipsOnTwoRegisters : Prop :=
  ∀ (x y : Reg) (n : Nibble) (s : State),
    (∃ t, exec (.seReg x y n) s = .next t ∧
      t.pc = (if s.readReg x = s.readReg y then s.pc + 2 else s.pc) ∧
      UnchangedExcept [.pc] s t) ∧
    (∃ t, exec (.sneReg x y n) s = .next t ∧
      t.pc = (if s.readReg x = s.readReg y then s.pc else s.pc + 2) ∧
      UnchangedExcept [.pc] s t)

/-! ### Load and ALU -/

/-- R121, R123: `6xnn` and `8xy0`. -/
def Obligations.LoadsOfARegister : Prop :=
  (∀ w : Word, (w &&& 0xF000 = 0x6000 → decodeWord w = .ok (.ldImm (Word.x w) (Word.nn w))) ∧
    (w &&& 0xF00F = 0x8000 → decodeWord w = .ok (.ldReg (Word.x w) (Word.y w)))) ∧
  ∀ (x y : Reg) (nn : Byte) (s : State),
    (∃ t, exec (.ldImm x nn) s = .next t ∧
      (∀ r, t.readReg r = if r = x then nn else s.readReg r) ∧ UnchangedExcept [.regs] s t) ∧
    (∃ t, exec (.ldReg x y) s = .next t ∧
      (∀ r, t.readReg r = if r = x then s.readReg y else s.readReg r) ∧
      UnchangedExcept [.regs] s t)

/-- R122: `7xnn` wraps modulo 256 and touches no flag. -/
def Obligations.AddImmediateWrapsWithoutFlag : Prop :=
  (∀ w : Word, w &&& 0xF000 = 0x7000 → decodeWord w = .ok (.addImm (Word.x w) (Word.nn w))) ∧
  ∀ (x : Reg) (nn : Byte) (s : State), ∃ t, exec (.addImm x nn) s = .next t ∧
    (t.readReg x).toNat = ((s.readReg x).toNat + nn.toNat) % 256 ∧
    (∀ r, r ≠ x → t.readReg r = s.readReg r) ∧ UnchangedExcept [.regs] s t

/-- R124, R125, R126: the bitwise instructions, bit by bit, without a flag. -/
def Obligations.LogicIsBitwiseWithoutFlag : Prop :=
  (∀ w : Word, (w &&& 0xF00F = 0x8001 → decodeWord w = .ok (.or (Word.x w) (Word.y w))) ∧
    (w &&& 0xF00F = 0x8002 → decodeWord w = .ok (.and (Word.x w) (Word.y w))) ∧
    (w &&& 0xF00F = 0x8003 → decodeWord w = .ok (.xor (Word.x w) (Word.y w)))) ∧
  ∀ (x y : Reg) (s : State),
    (∃ t, exec (.or x y) s = .next t ∧ (∀ k, (t.readReg x).getLsbD k =
        ((s.readReg x).getLsbD k || (s.readReg y).getLsbD k)) ∧
      (∀ r, r ≠ x → t.readReg r = s.readReg r) ∧ UnchangedExcept [.regs] s t) ∧
    (∃ t, exec (.and x y) s = .next t ∧ (∀ k, (t.readReg x).getLsbD k =
        ((s.readReg x).getLsbD k && (s.readReg y).getLsbD k)) ∧
      (∀ r, r ≠ x → t.readReg r = s.readReg r) ∧ UnchangedExcept [.regs] s t) ∧
    (∃ t, exec (.xor x y) s = .next t ∧ (∀ k, (t.readReg x).getLsbD k =
        ((s.readReg x).getLsbD k ^^ (s.readReg y).getLsbD k)) ∧
      (∀ r, r ≠ x → t.readReg r = s.readReg r) ∧ UnchangedExcept [.regs] s t)

/-- R127, R120 (for x = 15 decision D7: the result stays): `8xy4`. -/
def Obligations.AddReportsTheCarry : Prop :=
  ∀ (x y : Reg) (s : State), ∃ t, exec (.addReg x y) s = .next t ∧
    (t.readReg x).toNat = ((s.readReg x).toNat + (s.readReg y).toNat) % 256 ∧
    (x ≠ 15 → t.readReg 15 =
      if (s.readReg x).toNat + (s.readReg y).toNat > 255 then 1 else 0) ∧
    (∀ r, r ≠ x → r ≠ 15 → t.readReg r = s.readReg r) ∧ UnchangedExcept [.regs] s t

/-- R128, R130, R120 (for x = 15 decision D7): `8xy5` and `8xy7`, the flag by strict comparison. -/
def Obligations.SubtractionsReportStrictlyGreater : Prop :=
  ∀ (x y : Reg) (s : State),
    (∃ t, exec (.subReg x y) s = .next t ∧
      (t.readReg x).toNat = ((s.readReg x).toNat + 256 - (s.readReg y).toNat) % 256 ∧
      (x ≠ 15 → t.readReg 15 = if (s.readReg x).toNat > (s.readReg y).toNat then 1 else 0) ∧
      (∀ r, r ≠ x → r ≠ 15 → t.readReg r = s.readReg r) ∧ UnchangedExcept [.regs] s t) ∧
    (∃ t, exec (.subnReg x y) s = .next t ∧
      (t.readReg x).toNat = ((s.readReg y).toNat + 256 - (s.readReg x).toNat) % 256 ∧
      (x ≠ 15 → t.readReg 15 = if (s.readReg y).toNat > (s.readReg x).toNat then 1 else 0) ∧
      (∀ r, r ≠ x → r ≠ 15 → t.readReg r = s.readReg r) ∧ UnchangedExcept [.regs] s t)

/-- R129, R131, R120 (for x = 15 decision D7): `8xy6` and `8xyE`; `V[y]` plays no part. -/
def Obligations.ShiftsReportTheBitShiftedOut : Prop :=
  ∀ (x y : Reg) (s : State),
    (∃ t, exec (.shr x y) s = .next t ∧ (t.readReg x).toNat = (s.readReg x).toNat / 2 ∧
      (x ≠ 15 → (t.readReg 15).toNat = (s.readReg x).toNat % 2) ∧
      (∀ r, r ≠ x → r ≠ 15 → t.readReg r = s.readReg r) ∧ UnchangedExcept [.regs] s t) ∧
    (∃ t, exec (.shl x y) s = .next t ∧ (t.readReg x).toNat = (s.readReg x).toNat * 2 % 256 ∧
      (x ≠ 15 → (t.readReg 15).toNat = (s.readReg x).toNat / 128) ∧
      (∀ r, r ≠ x → r ≠ 15 → t.readReg r = s.readReg r) ∧ UnchangedExcept [.regs] s t)

/-- R132, R40 (the byte is an input under no law: decision D16): `Cxnn`. -/
def Obligations.RandomByteIsMasked : Prop :=
  ∀ (x : Reg) (nn : Byte) (s : State), ∃ t, exec (.rnd x nn) s = .next t ∧
    (∀ r, t.readReg r = if r = x then nn &&& s.port.sample.rnd else s.readReg r) ∧
    UnchangedExcept [.regs] s t

/-! ### Index register and memory -/

/-- R140, R142: `Annn` and `Fx29`, for every admissible FONT_BASE. -/
def Obligations.IndexLoads : Prop :=
  (∀ w : Word, (w &&& 0xF000 = 0xA000 → decodeWord w = .ok (.ldI (Word.nnn w))) ∧
    (w &&& 0xF0FF = 0xF029 → decodeWord w = .ok (.ldGlyph (Word.x w)))) ∧
  ∀ (nnn : BitVec 12) (x : Reg) (s : State),
    (∃ t, exec (.ldI nnn) s = .next t ∧ t.I.toNat = nnn.toNat ∧ UnchangedExcept [.index] s t) ∧
    (∃ t, exec (.ldGlyph x) s = .next t ∧
      t.I.toNat = Config.fontBase.val + 5 * (s.readReg x).toNat ∧ UnchangedExcept [.index] s t)

/-- R141 (the wrap is decision D2): `Fx1E` adds modulo 65536 and touches no flag. -/
def Obligations.AddToIndexWrapsWithoutFlag : Prop :=
  ∀ (x : Reg) (s : State), ∃ t, exec (.addI x) s = .next t ∧
    t.I.toNat = (s.I.toNat + (s.readReg x).toNat) % 65536 ∧ UnchangedExcept [.index] s t

/-- R143, R54: `Fx33` in range. -/
def Obligations.DigitsAreStoredInRange : Prop :=
  ∀ (x : Reg) (s : State), Memory.wf s.mem = true → s.I.toNat + 2 ≤ 4095 →
    ∃ t, exec (.ldDigits x) s = .next t ∧
      (Memory.byte t.mem (s.indexed 0)).toNat = (s.readReg x).toNat / 100 ∧
      (Memory.byte t.mem (s.indexed 1)).toNat = (s.readReg x).toNat / 10 % 10 ∧
      (Memory.byte t.mem (s.indexed 2)).toNat = (s.readReg x).toNat % 10 ∧
      (∀ a, a ≠ s.indexed 0 → a ≠ s.indexed 1 → a ≠ s.indexed 2 →
        Memory.byte t.mem a = Memory.byte s.mem a) ∧
      UnchangedExcept [.memory] s t

/-- R143, R53, R202 (decisions D17, D19): `Fx33` out of range halts at the first address above 4095,
the digits before it stored. -/
def Obligations.DigitsOutOfRangeHalt : Prop :=
  ∀ (x : Reg) (s : State), Memory.wf s.mem = true → s.I.toNat + 2 > 4095 →
    ∃ t, exec (.ldDigits x) s = .next t ∧
      TookFault (.memOutOfBounds (max s.I.toNat 4096)) (s.pc - 2) s t ∧
      (s.indexed 0 ≤ 4095 →
        (Memory.byte t.mem (s.indexed 0)).toNat = (s.readReg x).toNat / 100) ∧
      (s.indexed 1 ≤ 4095 →
        (Memory.byte t.mem (s.indexed 1)).toNat = (s.readReg x).toNat / 10 % 10) ∧
      (∀ a, ¬(s.indexed 0 ≤ a ∧ a ≤ s.indexed 1 ∧ a ≤ 4095) →
        Memory.byte t.mem a = Memory.byte s.mem a) ∧
      UnchangedExcept [.memory, .faults, .port] s t

/-- R144, R54: `Fx55` in range stores `V[0]` to `V[x]` and leaves I. -/
def Obligations.BlockStoreInRange : Prop :=
  ∀ (x : Reg) (s : State), Memory.wf s.mem = true → s.I.toNat + x.val ≤ 4095 →
    ∃ t, exec (.storeRegs x) s = .next t ∧
      (∀ r : Reg, r ≤ x → Memory.byte t.mem (s.indexed r.val) = s.readReg r) ∧
      (∀ a, ¬(s.indexed 0 ≤ a ∧ a ≤ s.indexed x.val) →
        Memory.byte t.mem a = Memory.byte s.mem a) ∧
      UnchangedExcept [.memory] s t

/-- R144, R53, R202 (decisions D17, D19): `Fx55` out of range halts at the first address above 4095,
the bytes before it stored. -/
def Obligations.BlockStoreOutOfRangeHalts : Prop :=
  ∀ (x : Reg) (s : State), Memory.wf s.mem = true → s.I.toNat + x.val > 4095 →
    ∃ t, exec (.storeRegs x) s = .next t ∧
      TookFault (.memOutOfBounds (max s.I.toNat 4096)) (s.pc - 2) s t ∧
      (∀ r : Reg, r ≤ x → s.indexed r.val ≤ 4095 →
        Memory.byte t.mem (s.indexed r.val) = s.readReg r) ∧
      (∀ a, ¬(s.indexed 0 ≤ a ∧ a ≤ s.indexed x.val ∧ a ≤ 4095) →
        Memory.byte t.mem a = Memory.byte s.mem a) ∧
      UnchangedExcept [.memory, .faults, .port] s t

/-- R145, R54: `Fx65` in range loads `V[0]` to `V[x]`, leaves the registers above, I and memory. -/
def Obligations.BlockLoadInRange : Prop :=
  ∀ (x : Reg) (s : State), s.I.toNat + x.val ≤ 4095 →
    ∃ t, exec (.loadRegs x) s = .next t ∧
      (∀ r : Reg, t.readReg r =
        if r ≤ x then Memory.byte s.mem (s.indexed r.val) else s.readReg r) ∧
      UnchangedExcept [.regs] s t

/-- R145, R52, R202 (decisions D17, D19): `Fx65` out of range halts at the first address above 4095,
the registers before it loaded. -/
def Obligations.BlockLoadOutOfRangeHalts : Prop :=
  ∀ (x : Reg) (s : State), s.I.toNat + x.val > 4095 →
    ∃ t, exec (.loadRegs x) s = .next t ∧
      TookFault (.memOutOfBounds (max s.I.toNat 4096)) (s.pc - 2) s t ∧
      (∀ r : Reg, t.readReg r = if r ≤ x ∧ s.indexed r.val ≤ 4095
        then Memory.byte s.mem (s.indexed r.val) else s.readReg r) ∧
      UnchangedExcept [.regs, .faults, .port] s t

/-! ### Display -/

/-- R161 (setting dirty is decision D9): `00E0`, whatever the ignored nibble (decision D8). -/
def Obligations.ClearBlanksTheDisplay : Prop :=
  ∀ (x : Nibble) (s : State), ∃ t, exec (.cls x) s = .next t ∧
    (∀ r c, Frame.pixel t.fb r c = false) ∧ t.dirty = true ∧
    UnchangedExcept [.pixels, .dirty] s t

/-- R160, R162, R163, R164 (n = 0 and dirty are decision D10, the eager check D11): `Dxyn` in range,
pixel by pixel. -/
def Obligations.DrawXorsTheClippedSprite : Prop :=
  ∀ (x y : Reg) (n : Nibble) (s : State), (n = 0 ∨ s.I.toNat + n.toNat ≤ 4096) →
    ∃ t, exec (.drw x y n) s = .next t ∧
      (∀ r c, SpriteBitOn s x y n r c → Frame.pixel t.fb r c = !Frame.pixel s.fb r c) ∧
      (∀ r c, ¬SpriteBitOn s x y n r c → Frame.pixel t.fb r c = Frame.pixel s.fb r c) ∧
      ((∃ r c, SpriteBitOn s x y n r c ∧ Frame.pixel s.fb r c = true) → t.readReg 15 = 1) ∧
      ((¬∃ r c, SpriteBitOn s x y n r c ∧ Frame.pixel s.fb r c = true) → t.readReg 15 = 0) ∧
      (∀ r, r ≠ 15 → t.readReg r = s.readReg r) ∧ t.dirty = true ∧
      UnchangedExcept [.regs, .pixels, .dirty] s t

/-- R162, R202 (decisions D11, D17): `Dxyn` with a sprite that reaches past 4095 halts before any
pixel, VF or dirty changes. -/
def Obligations.DrawOutOfRangeHalts : Prop :=
  ∀ (x y : Reg) (n : Nibble) (s : State), n ≠ 0 → s.I.toNat + n.toNat > 4096 →
    ∃ t, exec (.drw x y n) s = .next t ∧
      TookFault (.memOutOfBounds (max s.I.toNat 4096)) (s.pc - 2) s t ∧
      UnchangedExcept [.faults, .port] s t

/-- R164(c) (derived there): the same draw twice, with the same coordinates both times (they
can differ only where VF is a coordinate), restores the framebuffer, and the second one reports a
collision exactly when a drawn 1 bit lay over a pixel that was 0. -/
def Obligations.DrawingTwiceRestoresTheDisplay : Prop :=
  ∀ (x y : Reg) (n : Nibble) (s t : State), (n = 0 ∨ s.I.toNat + n.toNat ≤ 4096) →
    exec (.drw x y n) s = .next t → t.readReg x = s.readReg x → t.readReg y = s.readReg y →
    ∃ u, exec (.drw x y n) t = .next u ∧
      (∀ r c, Frame.pixel u.fb r c = Frame.pixel s.fb r c) ∧
      (u.readReg 15 = 1 ↔ ∃ r c, SpriteBitOn s x y n r c ∧ Frame.pixel s.fb r c = false)

/-! ### Keypad and timers -/

/-- R181, R182, R184 (a value above 15: decision D14): exactly one of `Ex9E` and `ExA1` skips. -/
def Obligations.KeySkips : Prop :=
  ∀ (x : Reg) (s : State),
    (∃ t, exec (.skp x) s = .next t ∧ UnchangedExcept [.pc] s t ∧
      t.pc = if (s.readReg x).toNat ≤ 15 ∧
        s.port.sample.keys.getLsbD (s.readReg x).toNat = true then s.pc + 2 else s.pc) ∧
    (∃ t, exec (.sknp x) s = .next t ∧ UnchangedExcept [.pc] s t ∧
      t.pc = if (s.readReg x).toNat ≤ 15 ∧
        s.port.sample.keys.getLsbD (s.readReg x).toNat = true then s.pc else s.pc + 2)

/-- R183, R36 (level and lowest key: decision D12): `Fx0A` takes a key that is down at once, and
begins the key wait otherwise. -/
def Obligations.WaitKeyTakesAKeyOrWaits : Prop :=
  ∀ (x : Reg) (s : State), ∃ t, exec (.waitKey x) s = .next t ∧
    (∀ k, LeastKeyDown s.port.sample.keys k →
      (t.readReg x).toNat = k.val ∧ (∀ r, r ≠ x → t.readReg r = s.readReg r) ∧
      UnchangedExcept [.regs] s t) ∧
    (s.port.sample.keys = 0 → t.awaiting = true ∧ t.waitReg = x ∧
      UnchangedExcept [.keyWait] s t) ∧
    (s.port.sample.keys ≠ 0 → ∃ k, LeastKeyDown s.port.sample.keys k)

/-- R185, R186, R187 (the accumulators stay): `Fx07`, `Fx15` and `Fx18`. -/
def Obligations.TimerReadsAndWrites : Prop :=
  ∀ (x : Reg) (s : State),
    (∃ t, exec (.ldRegDT x) s = .next t ∧
      (∀ r, t.readReg r = if r = x then s.DT else s.readReg r) ∧ UnchangedExcept [.regs] s t) ∧
    (∃ t, exec (.ldDTReg x) s = .next t ∧ t.DT = s.readReg x ∧ UnchangedExcept [.delay] s t) ∧
    (∃ t, exec (.ldSTReg x) s = .next t ∧ t.ST = s.readReg x ∧ UnchangedExcept [.sound] s t)

/-- R32 (exact rationals: decision D15; representation: assumption log 7): the timer advance is the
rational arithmetic of the rule. -/
def Obligations.TimerAdvanceIsExact : Prop :=
  ∀ (count : Byte) (acc dt : Seconds),
    (timerAdvance count acc dt).2.toRat =
      acc.toRat + dt.toRat - (⌊(acc.toRat + dt.toRat) * 60⌋₊ : ℚ) / 60 ∧
    0 ≤ (timerAdvance count acc dt).2.toRat ∧ (timerAdvance count acc dt).2.toRat < 1 / 60 ∧
    (timerAdvance count acc dt).1.toNat =
      count.toNat - min count.toNat ⌊(acc.toRat + dt.toRat) * 60⌋₊

/-- R188(a), R32: the counts of both timers only go down, except by `Fx15` and `Fx18`. A step after
which a count is larger ran that instruction, and the count is the register's value; the timer
advance raises neither count, and no other instruction changes one. -/
def Obligations.CountsOnlyGoDown : Prop :=
  ∀ s : State,
    (∀ t, step s = .next t →
      (s.DT.toNat < t.DT.toNat → ∃ x, s.Runs (.ldDTReg x) ∧ t.DT = s.readReg x) ∧
      (s.ST.toNat < t.ST.toNat → ∃ x, s.Runs (.ldSTReg x) ∧ t.ST = s.readReg x)) ∧
    s.advanceTimers.DT.toNat ≤ s.DT.toNat ∧ s.advanceTimers.ST.toNat ≤ s.ST.toNat ∧
    ∀ (i : Instr) (t : State), exec i s = .next t →
      (t.DT ≠ s.DT → ∃ x, i = .ldDTReg x) ∧ (t.ST ≠ s.ST → ∃ x, i = .ldSTReg x)

/-! ### The step -/

/-- R41, R43, R72 (host side: assumption log 1 and 2): a step runs the instruction that the two bytes
at pc decode to, on the state whose timers have advanced and whose pc is 2 further. -/
def Obligations.StepRunsTheDecodedInstruction : Prop :=
  ∀ (s : State) (i : Instr), s.halted = false → s.awaiting = false → s.pc.toNat + 1 ≤ 4095 →
    decode [Memory.byte s.mem s.pc.toNat, Memory.byte s.mem (s.pc.toNat + 1)] = .ok (i, []) →
    ∃ u, step s = exec i u ∧ u.pc = s.pc + 2 ∧
      (u.DT, u.DTacc) = timerAdvance s.DT s.DTacc s.port.nextInput.elapsed ∧
      (u.ST, u.STacc) = timerAdvance s.ST s.STacc s.port.nextInput.elapsed ∧
      u.port = s.hostTurn.port ∧ u.port.sample = s.port.nextInput ∧ u.port.event = none ∧
      u.dirty = (s.dirty && !s.port.nextInput.presents) ∧
      UnchangedExcept [.pc, .delay, .sound, .accumulators, .dirty, .port] s u

/-- R78, R203 (the event carries word and address: decision D21; host side: assumption log 1 to 3):
an unknown word only emits its diagnostic. -/
def Obligations.UnknownWordOnlyEmitsItsDiagnostic : Prop :=
  ∀ (s : State) (w : Word), s.halted = false → s.awaiting = false → s.pc.toNat + 1 ≤ 4095 →
    w = wordOfBytes (Memory.byte s.mem s.pc.toNat) (Memory.byte s.mem (s.pc.toNat + 1)) →
    decodeWord w = .error (.unknownInstruction w) →
    ∃ t, step s = .next t ∧ t.pc = s.pc + 2 ∧
      t.port = { s.hostTurn.port with event := some (.unknownInstruction w s.pc) } ∧
      t.port.event = some (.unknownInstruction w s.pc) ∧
      (t.DT, t.DTacc) = timerAdvance s.DT s.DTacc s.port.nextInput.elapsed ∧
      (t.ST, t.STacc) = timerAdvance s.ST s.STacc s.port.nextInput.elapsed ∧
      t.dirty = (s.dirty && !s.port.nextInput.presents) ∧
      UnchangedExcept [.pc, .delay, .sound, .accumulators, .dirty, .port] s t

/-- R43, R55, R202, R200, R40, R35, R45 (decisions D17, D18; host side: assumption log 1 to 3): a
fetch that is out of range halts with pc not advanced and outputs the fault as its event; `dirty` is
as the host's turn left it. -/
def Obligations.FetchOutOfRangeHalts : Prop :=
  ∀ s : State, s.halted = false → s.awaiting = false → s.pc.toNat + 1 > 4095 →
    ∃ t, step s = .next t ∧ t.pc = s.pc ∧ t.halted = true ∧
      t.fault = some { cause := .memOutOfBounds (max s.pc.toNat 4096), faultAddr := s.pc } ∧
      t.port.event =
        some (.fault { cause := .memOutOfBounds (max s.pc.toNat 4096), faultAddr := s.pc }) ∧
      t.port = { s.hostTurn.port with event := t.port.event } ∧
      t.dirty = (s.dirty && !s.port.nextInput.presents) ∧
      (t.DT, t.DTacc) = timerAdvance s.DT s.DTacc s.port.nextInput.elapsed ∧
      (t.ST, t.STacc) = timerAdvance s.ST s.STacc s.port.nextInput.elapsed ∧
      UnchangedExcept [.delay, .sound, .accumulators, .dirty, .faults, .port] s t

/-- R41 line 0, R204, R45 (decision D17; host side: assumption log 1 to 3): a step of a halted
machine changes nothing but what the host's turn changes. -/
def Obligations.HaltedStepChangesNothing : Prop :=
  ∀ s : State, s.halted = true → ∃ t, step s = .next t ∧ t.port = s.hostTurn.port ∧
    t.port.event = none ∧ t.dirty = (s.dirty && !s.port.nextInput.presents) ∧
    t.port.frame = (if s.port.nextInput.presents = true ∧ s.dirty = true then some s.fb else none) ∧
    UnchangedExcept [.dirty, .port] s t

/-- R41 line 2, R42, R216, R35, R45 (decisions D12, D13; host side: assumption log 1 to 3): a step in
the key wait fetches nothing; the least key down ends the wait; the timers run by the OPEN parameter
(assumption log 6); `dirty` is as the host's turn left it. -/
def Obligations.KeyWaitStepResolvesOrWaits : Prop :=
  ∀ s : State, s.halted = false → s.awaiting = true → ∃ t, step s = .next t ∧
    (s.port.nextInput.keys = 0 → t.awaiting = true ∧ ∀ r, t.readReg r = s.readReg r) ∧
    (∀ k, LeastKeyDown s.port.nextInput.keys k → t.awaiting = false ∧
      (t.readReg s.waitReg).toNat = k.val ∧ ∀ r, r ≠ s.waitReg → t.readReg r = s.readReg r) ∧
    t.waitReg = s.waitReg ∧
    (t.DT, t.DTacc) = (if Config.timersRunDuringKeyWait = true
      then timerAdvance s.DT s.DTacc s.port.nextInput.elapsed else (s.DT, s.DTacc)) ∧
    (t.ST, t.STacc) = (if Config.timersRunDuringKeyWait = true
      then timerAdvance s.ST s.STacc s.port.nextInput.elapsed else (s.ST, s.STacc)) ∧
    t.port = s.hostTurn.port ∧ t.port.event = none ∧
    t.dirty = (s.dirty && !s.port.nextInput.presents) ∧
    UnchangedExcept [.regs, .delay, .sound, .accumulators, .dirty, .keyWait, .port] s t

/-- R40, R45 (decision D22; host side: assumption log 1 to 3): the inputs of a step are the first the
host has lined up, each used once, or, with none lined up, the free inputs of the counter, which goes
up by one; Present() outputs the framebuffer only when dirty; the last step's event is gone. -/
def Obligations.HostTurnSamplesAndPresents : Prop :=
  ∀ s : State, s.hostTurn.port.sample = s.port.nextInput ∧ s.hostTurn.port.event = none ∧
    (∀ x xs, s.port.pending = x :: xs → s.port.nextInput = x ∧ s.hostTurn.port.pending = xs ∧
      s.hostTurn.port.sampleNo = s.port.sampleNo) ∧
    (s.port.pending = [] → s.port.nextInput = Config.hostInput s.port.sampleNo ∧
      s.hostTurn.port.pending = [] ∧ s.hostTurn.port.sampleNo = s.port.sampleNo + 1) ∧
    (s.port.nextInput.presents = true → s.hostTurn.dirty = false ∧
      s.hostTurn.port.frame = if s.dirty = true then some s.fb else none) ∧
    (s.port.nextInput.presents = false → s.hostTurn.dirty = s.dirty ∧
      s.hostTurn.port.frame = none) ∧
    UnchangedExcept [.dirty, .port] s s.hostTurn

/-- R57, R70 with assumption log 9: the step after a word was placed runs that word's instruction. -/
def Obligations.PlacedWordIsRun : Prop :=
  ∀ (s : State) (w : Nat) (i : Instr), Memory.wf s.mem = true → s.pc.toNat + 1 ≤ 4095 →
    decodeTableWord 16 w = some i →
    step (s.withFetchWord 16 w) =
      exec i (s.withFetchWord 16 w).hostTurn.advanceTimers.advancePc

/-! ### The whole machine -/

/-- R204, R207, R210 with assumption log 4: every step and every instruction answers a next state;
nothing faults outside the spec's own halted state and nothing is refused. -/
def Obligations.EveryStepAnswersANextState : Prop :=
  (∀ (i : Instr) (s : State), ∃ t, exec i s = .next t) ∧ ∀ s : State, ∃ t, step s = .next t

/-- R20, R21: an instruction writes only the registers it names, and VF only as a flag of the six
instructions, or as its destination. -/
def Obligations.OnlyNamedRegistersAreWritten : Prop :=
  ∀ (i : Instr) (s t : State) (r : Reg), exec i s = .next t → Instr.mayWrite r i = false →
    t.readReg r = s.readReg r

/-- R22, R26, R34, R35, R46, R47: each store is reached only by the instructions the spec names. -/
def Obligations.StoresAreReachedByTheirInstructions : Prop :=
  ∀ (i : Instr) (s t : State), exec i s = .next t →
    (t.I ≠ s.I → (∃ nnn, i = .ldI nnn) ∨ (∃ x, i = .addI x) ∨ ∃ x, i = .ldGlyph x) ∧
    (t.stack ≠ s.stack → (∃ nnn, i = .call nnn) ∨ ∃ x, i = .ret x) ∧
    ((∃ a, Memory.byte t.mem a ≠ Memory.byte s.mem a) →
      (∃ x, i = .ldDigits x) ∨ ∃ x, i = .storeRegs x) ∧
    ((∃ r c, Frame.pixel t.fb r c ≠ Frame.pixel s.fb r c) ∨ t.dirty ≠ s.dirty →
      (∃ x, i = .cls x) ∨ ∃ x y n, i = .drw x y n) ∧
    (t.awaiting ≠ s.awaiting ∨ t.waitReg ≠ s.waitReg → ∃ x, i = .waitKey x) ∧
    t.DTacc = s.DTacc ∧ t.STacc = s.STacc

/-- R200, R207 (decision D17): an instruction halts only if it is one of the six that can raise, and
then with a cause of its own. -/
def Obligations.OnlySixInstructionsCanHalt : Prop :=
  ∀ (i : Instr) (s t : State), s.halted = false → exec i s = .next t → t.halted = true →
    ((∃ x, i = .ret x) ∧ TookFault .stackUnderflow (s.pc - 2) s t) ∨
    ((∃ nnn, i = .call nnn) ∧ TookFault (.stackOverflow s.pc) (s.pc - 2) s t) ∨
    (((∃ x, i = .ldDigits x) ∨ (∃ x, i = .storeRegs x) ∨ (∃ x, i = .loadRegs x) ∨
        ∃ x y n, i = .drw x y n) ∧
      ∃ a, a > 4095 ∧ TookFault (.memOutOfBounds a) (s.pc - 2) s t)

/-- R40, R132, R180, R242 (derived there): no instruction but `Cxnn` depends on the random byte, none
but the three key instructions on the keys, and none on the elapsed time or the host's Present(). -/
def Obligations.InputsReachOnlyTheirInstructions : Prop :=
  ∀ (i : Instr) (s t : State) (x : StepInput), exec i s = .next t →
    ((∃ r nn, i = .rnd r nn) → x.rnd = s.port.sample.rnd) →
    ((∃ r, i = .skp r) ∨ (∃ r, i = .sknp r) ∨ (∃ r, i = .waitKey r) →
      x.keys = s.port.sample.keys) →
    exec i (s.withSample x) = .next (t.withSample x)

/-- R24 (derived there), R26, R30, R33, R37 and the canonical form of memory (assumption log 8):
the reset state meets the invariant. -/
def Obligations.ResetMeetsTheInvariant : Prop := State.reset.Inv

/-- R24 (derived there), R26, R30, R33, R37 and the canonical form of memory (assumption log 8):
every step keeps the invariant. -/
def Obligations.StepKeepsTheInvariant : Prop :=
  ∀ s t : State, s.Inv → step s = .next t → t.Inv
end

