-- ==== Sys2Proof/Laws/Decode.lean ====
section
/-! SUPPORT. The fields of the words that the encoder builds, and the words that fields build. -/

namespace Sys2Proof

@[simp] theorem Reg.toFin_nibble (r : Reg) : (Reg.nibble r).toFin = r := rfl

@[simp] theorem Reg.nibble_toFin (b : Nibble) : Reg.nibble b.toFin = b := rfl

/-! ### Fields of a word of four nibbles -/

@[simp] theorem Word.op_word4 (a b c d : Nibble) : Word.op (word4 a b c d) = a := by
  apply BitVec.eq_of_getLsbD_eq
  intro i hi
  simp only [Word.op, word4, BitVec.getLsbD_extractLsb', BitVec.getLsbD_append]
  grind

@[simp] theorem Word.xNibble_word4 (a b c d : Nibble) : Word.xNibble (word4 a b c d) = b := by
  apply BitVec.eq_of_getLsbD_eq
  intro i hi
  simp only [Word.xNibble, word4, BitVec.getLsbD_extractLsb', BitVec.getLsbD_append]
  grind

@[simp] theorem Word.yNibble_word4 (a b c d : Nibble) : Word.yNibble (word4 a b c d) = c := by
  apply BitVec.eq_of_getLsbD_eq
  intro i hi
  simp only [Word.yNibble, word4, BitVec.getLsbD_extractLsb', BitVec.getLsbD_append]
  grind

@[simp] theorem Word.n_word4 (a b c d : Nibble) : Word.n (word4 a b c d) = d := by
  apply BitVec.eq_of_getLsbD_eq
  intro i hi
  simp only [Word.n, word4, BitVec.getLsbD_extractLsb', BitVec.getLsbD_append]
  grind

@[simp] theorem Word.x_word4 (a b c d : Nibble) : Word.x (word4 a b c d) = b.toFin := by
  simp [Word.x]

@[simp] theorem Word.y_word4 (a b c d : Nibble) : Word.y (word4 a b c d) = c.toFin := by
  simp [Word.y]

/-! ### Fields of a word of `op`, `x` and `nn` -/

@[simp] theorem Word.op_wordXNN (a b : Nibble) (nn : Byte) : Word.op (wordXNN a b nn) = a := by
  apply BitVec.eq_of_getLsbD_eq
  intro i hi
  simp only [Word.op, wordXNN, BitVec.getLsbD_extractLsb', BitVec.getLsbD_append]
  grind

@[simp] theorem Word.xNibble_wordXNN (a b : Nibble) (nn : Byte) :
    Word.xNibble (wordXNN a b nn) = b := by
  apply BitVec.eq_of_getLsbD_eq
  intro i hi
  simp only [Word.xNibble, wordXNN, BitVec.getLsbD_extractLsb', BitVec.getLsbD_append]
  grind

@[simp] theorem Word.nn_wordXNN (a b : Nibble) (nn : Byte) : Word.nn (wordXNN a b nn) = nn := by
  apply BitVec.eq_of_getLsbD_eq
  intro i hi
  simp only [Word.nn, wordXNN, BitVec.getLsbD_extractLsb', BitVec.getLsbD_append]
  grind

@[simp] theorem Word.x_wordXNN (a b : Nibble) (nn : Byte) : Word.x (wordXNN a b nn) = b.toFin := by
  simp [Word.x]

/-! ### Fields of a word of `op` and `nnn` -/

@[simp] theorem Word.op_wordNNN (a : Nibble) (nnn : BitVec 12) : Word.op (wordNNN a nnn) = a := by
  apply BitVec.eq_of_getLsbD_eq
  intro i hi
  simp only [Word.op, wordNNN, BitVec.getLsbD_extractLsb', BitVec.getLsbD_append]
  grind

@[simp] theorem Word.nnn_wordNNN (a : Nibble) (nnn : BitVec 12) :
    Word.nnn (wordNNN a nnn) = nnn := by
  apply BitVec.eq_of_getLsbD_eq
  intro i hi
  simp only [Word.nnn, wordNNN, BitVec.getLsbD_extractLsb', BitVec.getLsbD_append]
  grind

/-! ### A word is built from its own fields -/

theorem word4_fields (w : Word) :
    word4 (Word.op w) (Word.xNibble w) (Word.yNibble w) (Word.n w) = w := by
  apply BitVec.eq_of_getLsbD_eq
  intro i hi
  simp only [word4, Word.op, Word.xNibble, Word.yNibble, Word.n, BitVec.getLsbD_append,
    BitVec.getLsbD_extractLsb']
  grind

theorem wordXNN_fields (w : Word) : wordXNN (Word.op w) (Word.xNibble w) (Word.nn w) = w := by
  apply BitVec.eq_of_getLsbD_eq
  intro i hi
  simp only [wordXNN, Word.op, Word.xNibble, Word.nn, BitVec.getLsbD_append,
    BitVec.getLsbD_extractLsb']
  grind

theorem wordNNN_fields (w : Word) : wordNNN (Word.op w) (Word.nnn w) = w := by
  apply BitVec.eq_of_getLsbD_eq
  intro i hi
  simp only [wordNNN, Word.op, Word.nnn, BitVec.getLsbD_append, BitVec.getLsbD_extractLsb']
  grind

/-- A word is built from its two bytes (R57). -/
theorem wordOfBytes_bytes (w : Word) : wordOfBytes (Word.hiByte w) (Word.loByte w) = w := by
  apply BitVec.eq_of_getLsbD_eq
  intro i hi
  simp only [wordOfBytes, Word.hiByte, Word.loByte, BitVec.getLsbD_append,
    BitVec.getLsbD_extractLsb']
  grind

/-! ### Masks act field by field -/

theorem Word.op_and (w m : Word) : Word.op (w &&& m) = Word.op w &&& Word.op m := by
  apply BitVec.eq_of_getLsbD_eq
  intro i hi
  simp only [Word.op, BitVec.getLsbD_extractLsb', BitVec.getLsbD_and]
  grind

theorem Word.nn_and (w m : Word) : Word.nn (w &&& m) = Word.nn w &&& Word.nn m := by
  apply BitVec.eq_of_getLsbD_eq
  intro i hi
  simp only [Word.nn, BitVec.getLsbD_extractLsb', BitVec.getLsbD_and]
  grind

theorem Word.n_and (w m : Word) : Word.n (w &&& m) = Word.n w &&& Word.n m := by
  apply BitVec.eq_of_getLsbD_eq
  intro i hi
  simp only [Word.n, BitVec.getLsbD_extractLsb', BitVec.getLsbD_and]
  grind

theorem word4_and (a b c d a' b' c' d' : Nibble) :
    word4 a b c d &&& word4 a' b' c' d' = word4 (a &&& a') (b &&& b') (c &&& c') (d &&& d') := by
  apply BitVec.eq_of_getLsbD_eq
  intro i hi
  simp only [word4, BitVec.getLsbD_append, BitVec.getLsbD_and]
  grind

theorem wordXNN_and (a b a' b' : Nibble) (nn nn' : Byte) :
    wordXNN a b nn &&& wordXNN a' b' nn' = wordXNN (a &&& a') (b &&& b') (nn &&& nn') := by
  apply BitVec.eq_of_getLsbD_eq
  intro i hi
  simp only [wordXNN, BitVec.getLsbD_append, BitVec.getLsbD_and]
  grind

theorem wordNNN_and (a a' : Nibble) (nnn nnn' : BitVec 12) :
    wordNNN a nnn &&& wordNNN a' nnn' = wordNNN (a &&& a') (nnn &&& nnn') := by
  apply BitVec.eq_of_getLsbD_eq
  intro i hi
  simp only [wordNNN, BitVec.getLsbD_append, BitVec.getLsbD_and]
  grind

end Sys2Proof
end

