-- ==== Sys2Proof/Laws/State.lean ====
section
/-! SUPPORT. What each named update of the state does to each field: one lemma per field per update,
so that no proof unfolds a record update. -/

namespace Sys2Proof.Machine

/-! ### writeReg -/

@[simp] theorem State.writeReg_V (s : State) (r : Reg) (b : Byte) :
    (s.writeReg r b).V = s.V.set r.val b r.isLt := rfl
@[simp] theorem State.writeReg_I (s : State) (r : Reg) (b : Byte) : (s.writeReg r b).I = s.I := rfl
@[simp] theorem State.writeReg_pc (s : State) (r : Reg) (b : Byte) :
    (s.writeReg r b).pc = s.pc := rfl
@[simp] theorem State.writeReg_mem (s : State) (r : Reg) (b : Byte) :
    (s.writeReg r b).mem = s.mem := rfl
@[simp] theorem State.writeReg_stack (s : State) (r : Reg) (b : Byte) :
    (s.writeReg r b).stack = s.stack := rfl
@[simp] theorem State.writeReg_DT (s : State) (r : Reg) (b : Byte) :
    (s.writeReg r b).DT = s.DT := rfl
@[simp] theorem State.writeReg_DTacc (s : State) (r : Reg) (b : Byte) :
    (s.writeReg r b).DTacc = s.DTacc := rfl
@[simp] theorem State.writeReg_ST (s : State) (r : Reg) (b : Byte) :
    (s.writeReg r b).ST = s.ST := rfl
@[simp] theorem State.writeReg_STacc (s : State) (r : Reg) (b : Byte) :
    (s.writeReg r b).STacc = s.STacc := rfl
@[simp] theorem State.writeReg_fb (s : State) (r : Reg) (b : Byte) :
    (s.writeReg r b).fb = s.fb := rfl
@[simp] theorem State.writeReg_dirty (s : State) (r : Reg) (b : Byte) :
    (s.writeReg r b).dirty = s.dirty := rfl
@[simp] theorem State.writeReg_awaiting (s : State) (r : Reg) (b : Byte) :
    (s.writeReg r b).awaiting = s.awaiting := rfl
@[simp] theorem State.writeReg_waitReg (s : State) (r : Reg) (b : Byte) :
    (s.writeReg r b).waitReg = s.waitReg := rfl
@[simp] theorem State.writeReg_halted (s : State) (r : Reg) (b : Byte) :
    (s.writeReg r b).halted = s.halted := rfl
@[simp] theorem State.writeReg_fault (s : State) (r : Reg) (b : Byte) :
    (s.writeReg r b).fault = s.fault := rfl
@[simp] theorem State.writeReg_port (s : State) (r : Reg) (b : Byte) :
    (s.writeReg r b).port = s.port := rfl

/-! ### writeFlagThen -/

@[simp] theorem State.writeFlagThen_I (s : State) (c : Bool) (r : Reg) (b : Byte) :
    (s.writeFlagThen c r b).I = s.I := rfl
@[simp] theorem State.writeFlagThen_pc (s : State) (c : Bool) (r : Reg) (b : Byte) :
    (s.writeFlagThen c r b).pc = s.pc := rfl
@[simp] theorem State.writeFlagThen_mem (s : State) (c : Bool) (r : Reg) (b : Byte) :
    (s.writeFlagThen c r b).mem = s.mem := rfl
@[simp] theorem State.writeFlagThen_stack (s : State) (c : Bool) (r : Reg) (b : Byte) :
    (s.writeFlagThen c r b).stack = s.stack := rfl
@[simp] theorem State.writeFlagThen_DT (s : State) (c : Bool) (r : Reg) (b : Byte) :
    (s.writeFlagThen c r b).DT = s.DT := rfl
@[simp] theorem State.writeFlagThen_DTacc (s : State) (c : Bool) (r : Reg) (b : Byte) :
    (s.writeFlagThen c r b).DTacc = s.DTacc := rfl
@[simp] theorem State.writeFlagThen_ST (s : State) (c : Bool) (r : Reg) (b : Byte) :
    (s.writeFlagThen c r b).ST = s.ST := rfl
@[simp] theorem State.writeFlagThen_STacc (s : State) (c : Bool) (r : Reg) (b : Byte) :
    (s.writeFlagThen c r b).STacc = s.STacc := rfl
@[simp] theorem State.writeFlagThen_fb (s : State) (c : Bool) (r : Reg) (b : Byte) :
    (s.writeFlagThen c r b).fb = s.fb := rfl
@[simp] theorem State.writeFlagThen_dirty (s : State) (c : Bool) (r : Reg) (b : Byte) :
    (s.writeFlagThen c r b).dirty = s.dirty := rfl
@[simp] theorem State.writeFlagThen_awaiting (s : State) (c : Bool) (r : Reg) (b : Byte) :
    (s.writeFlagThen c r b).awaiting = s.awaiting := rfl
@[simp] theorem State.writeFlagThen_waitReg (s : State) (c : Bool) (r : Reg) (b : Byte) :
    (s.writeFlagThen c r b).waitReg = s.waitReg := rfl
@[simp] theorem State.writeFlagThen_halted (s : State) (c : Bool) (r : Reg) (b : Byte) :
    (s.writeFlagThen c r b).halted = s.halted := rfl
@[simp] theorem State.writeFlagThen_fault (s : State) (c : Bool) (r : Reg) (b : Byte) :
    (s.writeFlagThen c r b).fault = s.fault := rfl
@[simp] theorem State.writeFlagThen_port (s : State) (c : Bool) (r : Reg) (b : Byte) :
    (s.writeFlagThen c r b).port = s.port := rfl

/-! ### setI -/

@[simp] theorem State.setI_V (s : State) (a : Addr) : (s.setI a).V = s.V := rfl
@[simp] theorem State.setI_I (s : State) (a : Addr) : (s.setI a).I = a := rfl
@[simp] theorem State.setI_pc (s : State) (a : Addr) : (s.setI a).pc = s.pc := rfl
@[simp] theorem State.setI_mem (s : State) (a : Addr) : (s.setI a).mem = s.mem := rfl
@[simp] theorem State.setI_stack (s : State) (a : Addr) : (s.setI a).stack = s.stack := rfl
@[simp] theorem State.setI_DT (s : State) (a : Addr) : (s.setI a).DT = s.DT := rfl
@[simp] theorem State.setI_DTacc (s : State) (a : Addr) : (s.setI a).DTacc = s.DTacc := rfl
@[simp] theorem State.setI_ST (s : State) (a : Addr) : (s.setI a).ST = s.ST := rfl
@[simp] theorem State.setI_STacc (s : State) (a : Addr) : (s.setI a).STacc = s.STacc := rfl
@[simp] theorem State.setI_fb (s : State) (a : Addr) : (s.setI a).fb = s.fb := rfl
@[simp] theorem State.setI_dirty (s : State) (a : Addr) : (s.setI a).dirty = s.dirty := rfl
@[simp] theorem State.setI_awaiting (s : State) (a : Addr) : (s.setI a).awaiting = s.awaiting := rfl
@[simp] theorem State.setI_waitReg (s : State) (a : Addr) : (s.setI a).waitReg = s.waitReg := rfl
@[simp] theorem State.setI_halted (s : State) (a : Addr) : (s.setI a).halted = s.halted := rfl
@[simp] theorem State.setI_fault (s : State) (a : Addr) : (s.setI a).fault = s.fault := rfl
@[simp] theorem State.setI_port (s : State) (a : Addr) : (s.setI a).port = s.port := rfl

/-! ### setMem -/

@[simp] theorem State.setMem_V (s : State) (m : Memory) : (s.setMem m).V = s.V := rfl
@[simp] theorem State.setMem_I (s : State) (m : Memory) : (s.setMem m).I = s.I := rfl
@[simp] theorem State.setMem_pc (s : State) (m : Memory) : (s.setMem m).pc = s.pc := rfl
@[simp] theorem State.setMem_mem (s : State) (m : Memory) : (s.setMem m).mem = m := rfl
@[simp] theorem State.setMem_stack (s : State) (m : Memory) : (s.setMem m).stack = s.stack := rfl
@[simp] theorem State.setMem_DT (s : State) (m : Memory) : (s.setMem m).DT = s.DT := rfl
@[simp] theorem State.setMem_DTacc (s : State) (m : Memory) : (s.setMem m).DTacc = s.DTacc := rfl
@[simp] theorem State.setMem_ST (s : State) (m : Memory) : (s.setMem m).ST = s.ST := rfl
@[simp] theorem State.setMem_STacc (s : State) (m : Memory) : (s.setMem m).STacc = s.STacc := rfl
@[simp] theorem State.setMem_fb (s : State) (m : Memory) : (s.setMem m).fb = s.fb := rfl
@[simp] theorem State.setMem_dirty (s : State) (m : Memory) : (s.setMem m).dirty = s.dirty := rfl
@[simp] theorem State.setMem_awaiting (s : State) (m : Memory) : (s.setMem m).awaiting = s.awaiting := rfl
@[simp] theorem State.setMem_waitReg (s : State) (m : Memory) : (s.setMem m).waitReg = s.waitReg := rfl
@[simp] theorem State.setMem_halted (s : State) (m : Memory) : (s.setMem m).halted = s.halted := rfl
@[simp] theorem State.setMem_fault (s : State) (m : Memory) : (s.setMem m).fault = s.fault := rfl
@[simp] theorem State.setMem_port (s : State) (m : Memory) : (s.setMem m).port = s.port := rfl

@[simp] theorem State.setMem_self (s : State) : s.setMem s.mem = s := rfl
@[simp] theorem State.setMem_setMem (s : State) (m m' : Memory) :
    (s.setMem m).setMem m' = s.setMem m' := rfl

/-! ### setStack -/

@[simp] theorem State.setStack_V (s : State) (l : List Addr) : (s.setStack l).V = s.V := rfl
@[simp] theorem State.setStack_I (s : State) (l : List Addr) : (s.setStack l).I = s.I := rfl
@[simp] theorem State.setStack_pc (s : State) (l : List Addr) : (s.setStack l).pc = s.pc := rfl
@[simp] theorem State.setStack_mem (s : State) (l : List Addr) : (s.setStack l).mem = s.mem := rfl
@[simp] theorem State.setStack_stack (s : State) (l : List Addr) : (s.setStack l).stack = l := rfl
@[simp] theorem State.setStack_DT (s : State) (l : List Addr) : (s.setStack l).DT = s.DT := rfl
@[simp] theorem State.setStack_DTacc (s : State) (l : List Addr) : (s.setStack l).DTacc = s.DTacc := rfl
@[simp] theorem State.setStack_ST (s : State) (l : List Addr) : (s.setStack l).ST = s.ST := rfl
@[simp] theorem State.setStack_STacc (s : State) (l : List Addr) : (s.setStack l).STacc = s.STacc := rfl
@[simp] theorem State.setStack_fb (s : State) (l : List Addr) : (s.setStack l).fb = s.fb := rfl
@[simp] theorem State.setStack_dirty (s : State) (l : List Addr) : (s.setStack l).dirty = s.dirty := rfl
@[simp] theorem State.setStack_awaiting (s : State) (l : List Addr) : (s.setStack l).awaiting = s.awaiting := rfl
@[simp] theorem State.setStack_waitReg (s : State) (l : List Addr) : (s.setStack l).waitReg = s.waitReg := rfl
@[simp] theorem State.setStack_halted (s : State) (l : List Addr) : (s.setStack l).halted = s.halted := rfl
@[simp] theorem State.setStack_fault (s : State) (l : List Addr) : (s.setStack l).fault = s.fault := rfl
@[simp] theorem State.setStack_port (s : State) (l : List Addr) : (s.setStack l).port = s.port := rfl

/-! ### setDT -/

@[simp] theorem State.setDT_V (s : State) (b : Byte) : (s.setDT b).V = s.V := rfl
@[simp] theorem State.setDT_I (s : State) (b : Byte) : (s.setDT b).I = s.I := rfl
@[simp] theorem State.setDT_pc (s : State) (b : Byte) : (s.setDT b).pc = s.pc := rfl
@[simp] theorem State.setDT_mem (s : State) (b : Byte) : (s.setDT b).mem = s.mem := rfl
@[simp] theorem State.setDT_stack (s : State) (b : Byte) : (s.setDT b).stack = s.stack := rfl
@[simp] theorem State.setDT_DT (s : State) (b : Byte) : (s.setDT b).DT = b := rfl
@[simp] theorem State.setDT_DTacc (s : State) (b : Byte) : (s.setDT b).DTacc = s.DTacc := rfl
@[simp] theorem State.setDT_ST (s : State) (b : Byte) : (s.setDT b).ST = s.ST := rfl
@[simp] theorem State.setDT_STacc (s : State) (b : Byte) : (s.setDT b).STacc = s.STacc := rfl
@[simp] theorem State.setDT_fb (s : State) (b : Byte) : (s.setDT b).fb = s.fb := rfl
@[simp] theorem State.setDT_dirty (s : State) (b : Byte) : (s.setDT b).dirty = s.dirty := rfl
@[simp] theorem State.setDT_awaiting (s : State) (b : Byte) : (s.setDT b).awaiting = s.awaiting := rfl
@[simp] theorem State.setDT_waitReg (s : State) (b : Byte) : (s.setDT b).waitReg = s.waitReg := rfl
@[simp] theorem State.setDT_halted (s : State) (b : Byte) : (s.setDT b).halted = s.halted := rfl
@[simp] theorem State.setDT_fault (s : State) (b : Byte) : (s.setDT b).fault = s.fault := rfl
@[simp] theorem State.setDT_port (s : State) (b : Byte) : (s.setDT b).port = s.port := rfl

/-! ### setST -/

@[simp] theorem State.setST_V (s : State) (b : Byte) : (s.setST b).V = s.V := rfl
@[simp] theorem State.setST_I (s : State) (b : Byte) : (s.setST b).I = s.I := rfl
@[simp] theorem State.setST_pc (s : State) (b : Byte) : (s.setST b).pc = s.pc := rfl
@[simp] theorem State.setST_mem (s : State) (b : Byte) : (s.setST b).mem = s.mem := rfl
@[simp] theorem State.setST_stack (s : State) (b : Byte) : (s.setST b).stack = s.stack := rfl
@[simp] theorem State.setST_DT (s : State) (b : Byte) : (s.setST b).DT = s.DT := rfl
@[simp] theorem State.setST_DTacc (s : State) (b : Byte) : (s.setST b).DTacc = s.DTacc := rfl
@[simp] theorem State.setST_ST (s : State) (b : Byte) : (s.setST b).ST = b := rfl
@[simp] theorem State.setST_STacc (s : State) (b : Byte) : (s.setST b).STacc = s.STacc := rfl
@[simp] theorem State.setST_fb (s : State) (b : Byte) : (s.setST b).fb = s.fb := rfl
@[simp] theorem State.setST_dirty (s : State) (b : Byte) : (s.setST b).dirty = s.dirty := rfl
@[simp] theorem State.setST_awaiting (s : State) (b : Byte) : (s.setST b).awaiting = s.awaiting := rfl
@[simp] theorem State.setST_waitReg (s : State) (b : Byte) : (s.setST b).waitReg = s.waitReg := rfl
@[simp] theorem State.setST_halted (s : State) (b : Byte) : (s.setST b).halted = s.halted := rfl
@[simp] theorem State.setST_fault (s : State) (b : Byte) : (s.setST b).fault = s.fault := rfl
@[simp] theorem State.setST_port (s : State) (b : Byte) : (s.setST b).port = s.port := rfl

/-! ### setDisplay -/

@[simp] theorem State.setDisplay_V (s : State) (f : Frame) : (s.setDisplay f).V = s.V := rfl
@[simp] theorem State.setDisplay_I (s : State) (f : Frame) : (s.setDisplay f).I = s.I := rfl
@[simp] theorem State.setDisplay_pc (s : State) (f : Frame) : (s.setDisplay f).pc = s.pc := rfl
@[simp] theorem State.setDisplay_mem (s : State) (f : Frame) : (s.setDisplay f).mem = s.mem := rfl
@[simp] theorem State.setDisplay_stack (s : State) (f : Frame) : (s.setDisplay f).stack = s.stack := rfl
@[simp] theorem State.setDisplay_DT (s : State) (f : Frame) : (s.setDisplay f).DT = s.DT := rfl
@[simp] theorem State.setDisplay_DTacc (s : State) (f : Frame) : (s.setDisplay f).DTacc = s.DTacc := rfl
@[simp] theorem State.setDisplay_ST (s : State) (f : Frame) : (s.setDisplay f).ST = s.ST := rfl
@[simp] theorem State.setDisplay_STacc (s : State) (f : Frame) : (s.setDisplay f).STacc = s.STacc := rfl
@[simp] theorem State.setDisplay_fb (s : State) (f : Frame) : (s.setDisplay f).fb = f := rfl
@[simp] theorem State.setDisplay_dirty (s : State) (f : Frame) : (s.setDisplay f).dirty = true := rfl
@[simp] theorem State.setDisplay_awaiting (s : State) (f : Frame) : (s.setDisplay f).awaiting = s.awaiting := rfl
@[simp] theorem State.setDisplay_waitReg (s : State) (f : Frame) : (s.setDisplay f).waitReg = s.waitReg := rfl
@[simp] theorem State.setDisplay_halted (s : State) (f : Frame) : (s.setDisplay f).halted = s.halted := rfl
@[simp] theorem State.setDisplay_fault (s : State) (f : Frame) : (s.setDisplay f).fault = s.fault := rfl
@[simp] theorem State.setDisplay_port (s : State) (f : Frame) : (s.setDisplay f).port = s.port := rfl

/-! ### beginWait -/

@[simp] theorem State.beginWait_V (s : State) (x : Reg) : (s.beginWait x).V = s.V := rfl
@[simp] theorem State.beginWait_I (s : State) (x : Reg) : (s.beginWait x).I = s.I := rfl
@[simp] theorem State.beginWait_pc (s : State) (x : Reg) : (s.beginWait x).pc = s.pc := rfl
@[simp] theorem State.beginWait_mem (s : State) (x : Reg) : (s.beginWait x).mem = s.mem := rfl
@[simp] theorem State.beginWait_stack (s : State) (x : Reg) : (s.beginWait x).stack = s.stack := rfl
@[simp] theorem State.beginWait_DT (s : State) (x : Reg) : (s.beginWait x).DT = s.DT := rfl
@[simp] theorem State.beginWait_DTacc (s : State) (x : Reg) : (s.beginWait x).DTacc = s.DTacc := rfl
@[simp] theorem State.beginWait_ST (s : State) (x : Reg) : (s.beginWait x).ST = s.ST := rfl
@[simp] theorem State.beginWait_STacc (s : State) (x : Reg) : (s.beginWait x).STacc = s.STacc := rfl
@[simp] theorem State.beginWait_fb (s : State) (x : Reg) : (s.beginWait x).fb = s.fb := rfl
@[simp] theorem State.beginWait_dirty (s : State) (x : Reg) : (s.beginWait x).dirty = s.dirty := rfl
@[simp] theorem State.beginWait_awaiting (s : State) (x : Reg) : (s.beginWait x).awaiting = true := rfl
@[simp] theorem State.beginWait_waitReg (s : State) (x : Reg) : (s.beginWait x).waitReg = x := rfl
@[simp] theorem State.beginWait_halted (s : State) (x : Reg) : (s.beginWait x).halted = s.halted := rfl
@[simp] theorem State.beginWait_fault (s : State) (x : Reg) : (s.beginWait x).fault = s.fault := rfl
@[simp] theorem State.beginWait_port (s : State) (x : Reg) : (s.beginWait x).port = s.port := rfl

/-! ### endWait -/

@[simp] theorem State.endWait_V (s : State) : (s.endWait).V = s.V := rfl
@[simp] theorem State.endWait_I (s : State) : (s.endWait).I = s.I := rfl
@[simp] theorem State.endWait_pc (s : State) : (s.endWait).pc = s.pc := rfl
@[simp] theorem State.endWait_mem (s : State) : (s.endWait).mem = s.mem := rfl
@[simp] theorem State.endWait_stack (s : State) : (s.endWait).stack = s.stack := rfl
@[simp] theorem State.endWait_DT (s : State) : (s.endWait).DT = s.DT := rfl
@[simp] theorem State.endWait_DTacc (s : State) : (s.endWait).DTacc = s.DTacc := rfl
@[simp] theorem State.endWait_ST (s : State) : (s.endWait).ST = s.ST := rfl
@[simp] theorem State.endWait_STacc (s : State) : (s.endWait).STacc = s.STacc := rfl
@[simp] theorem State.endWait_fb (s : State) : (s.endWait).fb = s.fb := rfl
@[simp] theorem State.endWait_dirty (s : State) : (s.endWait).dirty = s.dirty := rfl
@[simp] theorem State.endWait_awaiting (s : State) : (s.endWait).awaiting = false := rfl
@[simp] theorem State.endWait_waitReg (s : State) : (s.endWait).waitReg = s.waitReg := rfl
@[simp] theorem State.endWait_halted (s : State) : (s.endWait).halted = s.halted := rfl
@[simp] theorem State.endWait_fault (s : State) : (s.endWait).fault = s.fault := rfl
@[simp] theorem State.endWait_port (s : State) : (s.endWait).port = s.port := rfl

/-! ### jump -/

@[simp] theorem State.jump_V (s : State) (a : Addr) : (s.jump a).V = s.V := rfl
@[simp] theorem State.jump_I (s : State) (a : Addr) : (s.jump a).I = s.I := rfl
@[simp] theorem State.jump_pc (s : State) (a : Addr) : (s.jump a).pc = a := rfl
@[simp] theorem State.jump_mem (s : State) (a : Addr) : (s.jump a).mem = s.mem := rfl
@[simp] theorem State.jump_stack (s : State) (a : Addr) : (s.jump a).stack = s.stack := rfl
@[simp] theorem State.jump_DT (s : State) (a : Addr) : (s.jump a).DT = s.DT := rfl
@[simp] theorem State.jump_DTacc (s : State) (a : Addr) : (s.jump a).DTacc = s.DTacc := rfl
@[simp] theorem State.jump_ST (s : State) (a : Addr) : (s.jump a).ST = s.ST := rfl
@[simp] theorem State.jump_STacc (s : State) (a : Addr) : (s.jump a).STacc = s.STacc := rfl
@[simp] theorem State.jump_fb (s : State) (a : Addr) : (s.jump a).fb = s.fb := rfl
@[simp] theorem State.jump_dirty (s : State) (a : Addr) : (s.jump a).dirty = s.dirty := rfl
@[simp] theorem State.jump_awaiting (s : State) (a : Addr) : (s.jump a).awaiting = s.awaiting := rfl
@[simp] theorem State.jump_waitReg (s : State) (a : Addr) : (s.jump a).waitReg = s.waitReg := rfl
@[simp] theorem State.jump_halted (s : State) (a : Addr) : (s.jump a).halted = s.halted := rfl
@[simp] theorem State.jump_fault (s : State) (a : Addr) : (s.jump a).fault = s.fault := rfl
@[simp] theorem State.jump_port (s : State) (a : Addr) : (s.jump a).port = s.port := rfl

/-! ### advancePc -/

@[simp] theorem State.advancePc_V (s : State) : (s.advancePc).V = s.V := rfl
@[simp] theorem State.advancePc_I (s : State) : (s.advancePc).I = s.I := rfl
@[simp] theorem State.advancePc_pc (s : State) : (s.advancePc).pc = s.pc + 2 := rfl
@[simp] theorem State.advancePc_mem (s : State) : (s.advancePc).mem = s.mem := rfl
@[simp] theorem State.advancePc_stack (s : State) : (s.advancePc).stack = s.stack := rfl
@[simp] theorem State.advancePc_DT (s : State) : (s.advancePc).DT = s.DT := rfl
@[simp] theorem State.advancePc_DTacc (s : State) : (s.advancePc).DTacc = s.DTacc := rfl
@[simp] theorem State.advancePc_ST (s : State) : (s.advancePc).ST = s.ST := rfl
@[simp] theorem State.advancePc_STacc (s : State) : (s.advancePc).STacc = s.STacc := rfl
@[simp] theorem State.advancePc_fb (s : State) : (s.advancePc).fb = s.fb := rfl
@[simp] theorem State.advancePc_dirty (s : State) : (s.advancePc).dirty = s.dirty := rfl
@[simp] theorem State.advancePc_awaiting (s : State) : (s.advancePc).awaiting = s.awaiting := rfl
@[simp] theorem State.advancePc_waitReg (s : State) : (s.advancePc).waitReg = s.waitReg := rfl
@[simp] theorem State.advancePc_halted (s : State) : (s.advancePc).halted = s.halted := rfl
@[simp] theorem State.advancePc_fault (s : State) : (s.advancePc).fault = s.fault := rfl
@[simp] theorem State.advancePc_port (s : State) : (s.advancePc).port = s.port := rfl

/-! ### skipIf -/

@[simp] theorem State.skipIf_V (s : State) (c : Bool) : (s.skipIf c).V = s.V := rfl
@[simp] theorem State.skipIf_I (s : State) (c : Bool) : (s.skipIf c).I = s.I := rfl
@[simp] theorem State.skipIf_pc (s : State) (c : Bool) :
    (s.skipIf c).pc = if c then s.pc + 2 else s.pc := rfl
@[simp] theorem State.skipIf_mem (s : State) (c : Bool) : (s.skipIf c).mem = s.mem := rfl
@[simp] theorem State.skipIf_stack (s : State) (c : Bool) : (s.skipIf c).stack = s.stack := rfl
@[simp] theorem State.skipIf_DT (s : State) (c : Bool) : (s.skipIf c).DT = s.DT := rfl
@[simp] theorem State.skipIf_DTacc (s : State) (c : Bool) : (s.skipIf c).DTacc = s.DTacc := rfl
@[simp] theorem State.skipIf_ST (s : State) (c : Bool) : (s.skipIf c).ST = s.ST := rfl
@[simp] theorem State.skipIf_STacc (s : State) (c : Bool) : (s.skipIf c).STacc = s.STacc := rfl
@[simp] theorem State.skipIf_fb (s : State) (c : Bool) : (s.skipIf c).fb = s.fb := rfl
@[simp] theorem State.skipIf_dirty (s : State) (c : Bool) : (s.skipIf c).dirty = s.dirty := rfl
@[simp] theorem State.skipIf_awaiting (s : State) (c : Bool) :
    (s.skipIf c).awaiting = s.awaiting := rfl
@[simp] theorem State.skipIf_waitReg (s : State) (c : Bool) :
    (s.skipIf c).waitReg = s.waitReg := rfl
@[simp] theorem State.skipIf_halted (s : State) (c : Bool) : (s.skipIf c).halted = s.halted := rfl
@[simp] theorem State.skipIf_fault (s : State) (c : Bool) : (s.skipIf c).fault = s.fault := rfl
@[simp] theorem State.skipIf_port (s : State) (c : Bool) : (s.skipIf c).port = s.port := rfl

/-! ### raise -/

@[simp] theorem State.raise_V (s : State) (c : FaultCause) (a : Addr) : (s.raise c a).V = s.V := rfl
@[simp] theorem State.raise_I (s : State) (c : FaultCause) (a : Addr) : (s.raise c a).I = s.I := rfl
@[simp] theorem State.raise_pc (s : State) (c : FaultCause) (a : Addr) :
    (s.raise c a).pc = s.pc := rfl
@[simp] theorem State.raise_mem (s : State) (c : FaultCause) (a : Addr) :
    (s.raise c a).mem = s.mem := rfl
@[simp] theorem State.raise_stack (s : State) (c : FaultCause) (a : Addr) :
    (s.raise c a).stack = s.stack := rfl
@[simp] theorem State.raise_DT (s : State) (c : FaultCause) (a : Addr) :
    (s.raise c a).DT = s.DT := rfl
@[simp] theorem State.raise_DTacc (s : State) (c : FaultCause) (a : Addr) :
    (s.raise c a).DTacc = s.DTacc := rfl
@[simp] theorem State.raise_ST (s : State) (c : FaultCause) (a : Addr) :
    (s.raise c a).ST = s.ST := rfl
@[simp] theorem State.raise_STacc (s : State) (c : FaultCause) (a : Addr) :
    (s.raise c a).STacc = s.STacc := rfl
@[simp] theorem State.raise_fb (s : State) (c : FaultCause) (a : Addr) :
    (s.raise c a).fb = s.fb := rfl
@[simp] theorem State.raise_dirty (s : State) (c : FaultCause) (a : Addr) :
    (s.raise c a).dirty = s.dirty := rfl
@[simp] theorem State.raise_awaiting (s : State) (c : FaultCause) (a : Addr) :
    (s.raise c a).awaiting = s.awaiting := rfl
@[simp] theorem State.raise_waitReg (s : State) (c : FaultCause) (a : Addr) :
    (s.raise c a).waitReg = s.waitReg := rfl
@[simp] theorem State.raise_halted (s : State) (c : FaultCause) (a : Addr) :
    (s.raise c a).halted = true := rfl
@[simp] theorem State.raise_fault (s : State) (c : FaultCause) (a : Addr) :
    (s.raise c a).fault = some { cause := c, faultAddr := a } := rfl
@[simp] theorem State.raise_port (s : State) (c : FaultCause) (a : Addr) :
    (s.raise c a).port = { s.port with event := some (.fault { cause := c, faultAddr := a }) } := rfl

/-! ### raiseHere -/

@[simp] theorem State.raiseHere_V (s : State) (c : FaultCause) : (s.raiseHere c).V = s.V := rfl
@[simp] theorem State.raiseHere_I (s : State) (c : FaultCause) : (s.raiseHere c).I = s.I := rfl
@[simp] theorem State.raiseHere_pc (s : State) (c : FaultCause) : (s.raiseHere c).pc = s.pc := rfl
@[simp] theorem State.raiseHere_mem (s : State) (c : FaultCause) :
    (s.raiseHere c).mem = s.mem := rfl
@[simp] theorem State.raiseHere_stack (s : State) (c : FaultCause) :
    (s.raiseHere c).stack = s.stack := rfl
@[simp] theorem State.raiseHere_DT (s : State) (c : FaultCause) : (s.raiseHere c).DT = s.DT := rfl
@[simp] theorem State.raiseHere_DTacc (s : State) (c : FaultCause) :
    (s.raiseHere c).DTacc = s.DTacc := rfl
@[simp] theorem State.raiseHere_ST (s : State) (c : FaultCause) : (s.raiseHere c).ST = s.ST := rfl
@[simp] theorem State.raiseHere_STacc (s : State) (c : FaultCause) :
    (s.raiseHere c).STacc = s.STacc := rfl
@[simp] theorem State.raiseHere_fb (s : State) (c : FaultCause) : (s.raiseHere c).fb = s.fb := rfl
@[simp] theorem State.raiseHere_dirty (s : State) (c : FaultCause) :
    (s.raiseHere c).dirty = s.dirty := rfl
@[simp] theorem State.raiseHere_awaiting (s : State) (c : FaultCause) :
    (s.raiseHere c).awaiting = s.awaiting := rfl
@[simp] theorem State.raiseHere_waitReg (s : State) (c : FaultCause) :
    (s.raiseHere c).waitReg = s.waitReg := rfl
@[simp] theorem State.raiseHere_halted (s : State) (c : FaultCause) :
    (s.raiseHere c).halted = true := rfl
@[simp] theorem State.raiseHere_fault (s : State) (c : FaultCause) :
    (s.raiseHere c).fault = some { cause := c, faultAddr := s.instrAddr } := rfl
@[simp] theorem State.raiseHere_port (s : State) (c : FaultCause) :
    (s.raiseHere c).port = { s.port with event := some (.fault { cause := c, faultAddr := s.instrAddr }) } := rfl

/-! ### diagnose -/

@[simp] theorem State.diagnose_V (s : State) (w : Word) : (s.diagnose w).V = s.V := rfl
@[simp] theorem State.diagnose_I (s : State) (w : Word) : (s.diagnose w).I = s.I := rfl
@[simp] theorem State.diagnose_pc (s : State) (w : Word) : (s.diagnose w).pc = s.pc := rfl
@[simp] theorem State.diagnose_mem (s : State) (w : Word) : (s.diagnose w).mem = s.mem := rfl
@[simp] theorem State.diagnose_stack (s : State) (w : Word) : (s.diagnose w).stack = s.stack := rfl
@[simp] theorem State.diagnose_DT (s : State) (w : Word) : (s.diagnose w).DT = s.DT := rfl
@[simp] theorem State.diagnose_DTacc (s : State) (w : Word) : (s.diagnose w).DTacc = s.DTacc := rfl
@[simp] theorem State.diagnose_ST (s : State) (w : Word) : (s.diagnose w).ST = s.ST := rfl
@[simp] theorem State.diagnose_STacc (s : State) (w : Word) : (s.diagnose w).STacc = s.STacc := rfl
@[simp] theorem State.diagnose_fb (s : State) (w : Word) : (s.diagnose w).fb = s.fb := rfl
@[simp] theorem State.diagnose_dirty (s : State) (w : Word) : (s.diagnose w).dirty = s.dirty := rfl
@[simp] theorem State.diagnose_awaiting (s : State) (w : Word) :
    (s.diagnose w).awaiting = s.awaiting := rfl
@[simp] theorem State.diagnose_waitReg (s : State) (w : Word) :
    (s.diagnose w).waitReg = s.waitReg := rfl
@[simp] theorem State.diagnose_halted (s : State) (w : Word) :
    (s.diagnose w).halted = s.halted := rfl
@[simp] theorem State.diagnose_fault (s : State) (w : Word) : (s.diagnose w).fault = s.fault := rfl
@[simp] theorem State.diagnose_port (s : State) (w : Word) :
    (s.diagnose w).port = { s.port with event := some (.unknownInstruction w s.instrAddr) } := rfl

/-! ### advanceTimers -/

@[simp] theorem State.advanceTimers_V (s : State) : (s.advanceTimers).V = s.V := rfl
@[simp] theorem State.advanceTimers_I (s : State) : (s.advanceTimers).I = s.I := rfl
@[simp] theorem State.advanceTimers_pc (s : State) : (s.advanceTimers).pc = s.pc := rfl
@[simp] theorem State.advanceTimers_mem (s : State) : (s.advanceTimers).mem = s.mem := rfl
@[simp] theorem State.advanceTimers_stack (s : State) : (s.advanceTimers).stack = s.stack := rfl
@[simp] theorem State.advanceTimers_fb (s : State) : (s.advanceTimers).fb = s.fb := rfl
@[simp] theorem State.advanceTimers_dirty (s : State) : (s.advanceTimers).dirty = s.dirty := rfl
@[simp] theorem State.advanceTimers_awaiting (s : State) :
    (s.advanceTimers).awaiting = s.awaiting := rfl
@[simp] theorem State.advanceTimers_waitReg (s : State) :
    (s.advanceTimers).waitReg = s.waitReg := rfl
@[simp] theorem State.advanceTimers_halted (s : State) : (s.advanceTimers).halted = s.halted := rfl
@[simp] theorem State.advanceTimers_fault (s : State) : (s.advanceTimers).fault = s.fault := rfl
@[simp] theorem State.advanceTimers_port (s : State) : (s.advanceTimers).port = s.port := rfl

/-! ### presentIf -/

@[simp] theorem State.presentIf_V (s : State) (c : Bool) : (s.presentIf c).V = s.V := rfl
@[simp] theorem State.presentIf_I (s : State) (c : Bool) : (s.presentIf c).I = s.I := rfl
@[simp] theorem State.presentIf_pc (s : State) (c : Bool) : (s.presentIf c).pc = s.pc := rfl
@[simp] theorem State.presentIf_mem (s : State) (c : Bool) : (s.presentIf c).mem = s.mem := rfl
@[simp] theorem State.presentIf_stack (s : State) (c : Bool) :
    (s.presentIf c).stack = s.stack := rfl
@[simp] theorem State.presentIf_DT (s : State) (c : Bool) : (s.presentIf c).DT = s.DT := rfl
@[simp] theorem State.presentIf_DTacc (s : State) (c : Bool) :
    (s.presentIf c).DTacc = s.DTacc := rfl
@[simp] theorem State.presentIf_ST (s : State) (c : Bool) : (s.presentIf c).ST = s.ST := rfl
@[simp] theorem State.presentIf_STacc (s : State) (c : Bool) :
    (s.presentIf c).STacc = s.STacc := rfl
@[simp] theorem State.presentIf_fb (s : State) (c : Bool) : (s.presentIf c).fb = s.fb := rfl
@[simp] theorem State.presentIf_dirty (s : State) (c : Bool) :
    (s.presentIf c).dirty = (s.dirty && !c) := rfl
@[simp] theorem State.presentIf_awaiting (s : State) (c : Bool) :
    (s.presentIf c).awaiting = s.awaiting := rfl
@[simp] theorem State.presentIf_waitReg (s : State) (c : Bool) :
    (s.presentIf c).waitReg = s.waitReg := rfl
@[simp] theorem State.presentIf_halted (s : State) (c : Bool) :
    (s.presentIf c).halted = s.halted := rfl
@[simp] theorem State.presentIf_fault (s : State) (c : Bool) :
    (s.presentIf c).fault = s.fault := rfl
@[simp] theorem State.presentIf_port (s : State) (c : Bool) :
    (s.presentIf c).port = { s.port with frame := if c && s.dirty then some s.fb else none } := rfl

/-! ### hostTurn -/

@[simp] theorem State.hostTurn_V (s : State) : (s.hostTurn).V = s.V := rfl
@[simp] theorem State.hostTurn_I (s : State) : (s.hostTurn).I = s.I := rfl
@[simp] theorem State.hostTurn_pc (s : State) : (s.hostTurn).pc = s.pc := rfl
@[simp] theorem State.hostTurn_mem (s : State) : (s.hostTurn).mem = s.mem := rfl
@[simp] theorem State.hostTurn_stack (s : State) : (s.hostTurn).stack = s.stack := rfl
@[simp] theorem State.hostTurn_DT (s : State) : (s.hostTurn).DT = s.DT := rfl
@[simp] theorem State.hostTurn_DTacc (s : State) : (s.hostTurn).DTacc = s.DTacc := rfl
@[simp] theorem State.hostTurn_ST (s : State) : (s.hostTurn).ST = s.ST := rfl
@[simp] theorem State.hostTurn_STacc (s : State) : (s.hostTurn).STacc = s.STacc := rfl
@[simp] theorem State.hostTurn_fb (s : State) : (s.hostTurn).fb = s.fb := rfl
@[simp] theorem State.hostTurn_dirty (s : State) :
    (s.hostTurn).dirty = (s.dirty && !s.port.nextInput.presents) := rfl
@[simp] theorem State.hostTurn_awaiting (s : State) : (s.hostTurn).awaiting = s.awaiting := rfl
@[simp] theorem State.hostTurn_waitReg (s : State) : (s.hostTurn).waitReg = s.waitReg := rfl
@[simp] theorem State.hostTurn_halted (s : State) : (s.hostTurn).halted = s.halted := rfl
@[simp] theorem State.hostTurn_fault (s : State) : (s.hostTurn).fault = s.fault := rfl

/-! ### placeWord -/

@[simp] theorem State.placeWord_V (s : State) (w : Word) : (s.placeWord w).V = s.V := rfl
@[simp] theorem State.placeWord_I (s : State) (w : Word) : (s.placeWord w).I = s.I := rfl
@[simp] theorem State.placeWord_pc (s : State) (w : Word) : (s.placeWord w).pc = s.pc := rfl
@[simp] theorem State.placeWord_stack (s : State) (w : Word) :
    (s.placeWord w).stack = s.stack := rfl
@[simp] theorem State.placeWord_DT (s : State) (w : Word) : (s.placeWord w).DT = s.DT := rfl
@[simp] theorem State.placeWord_DTacc (s : State) (w : Word) :
    (s.placeWord w).DTacc = s.DTacc := rfl
@[simp] theorem State.placeWord_ST (s : State) (w : Word) : (s.placeWord w).ST = s.ST := rfl
@[simp] theorem State.placeWord_STacc (s : State) (w : Word) :
    (s.placeWord w).STacc = s.STacc := rfl
@[simp] theorem State.placeWord_fb (s : State) (w : Word) : (s.placeWord w).fb = s.fb := rfl
@[simp] theorem State.placeWord_dirty (s : State) (w : Word) :
    (s.placeWord w).dirty = s.dirty := rfl
@[simp] theorem State.placeWord_awaiting (s : State) (w : Word) :
    (s.placeWord w).awaiting = false := rfl
@[simp] theorem State.placeWord_waitReg (s : State) (w : Word) :
    (s.placeWord w).waitReg = s.waitReg := rfl
@[simp] theorem State.placeWord_halted (s : State) (w : Word) :
    (s.placeWord w).halted = false := rfl
@[simp] theorem State.placeWord_fault (s : State) (w : Word) :
    (s.placeWord w).fault = s.fault := rfl
@[simp] theorem State.placeWord_port (s : State) (w : Word) : (s.placeWord w).port = s.port := rfl

/-! ### The timers of a step -/

@[simp] theorem State.advanceTimers_DT (s : State) :
    s.advanceTimers.DT =
      if s.timersRun then (timerAdvance s.DT s.DTacc s.port.sample.elapsed).1 else s.DT := rfl
@[simp] theorem State.advanceTimers_DTacc (s : State) :
    s.advanceTimers.DTacc =
      if s.timersRun then (timerAdvance s.DT s.DTacc s.port.sample.elapsed).2 else s.DTacc := rfl
@[simp] theorem State.advanceTimers_ST (s : State) :
    s.advanceTimers.ST =
      if s.timersRun then (timerAdvance s.ST s.STacc s.port.sample.elapsed).1 else s.ST := rfl
@[simp] theorem State.advanceTimers_STacc (s : State) :
    s.advanceTimers.STacc =
      if s.timersRun then (timerAdvance s.ST s.STacc s.port.sample.elapsed).2 else s.STacc := rfl

/-! ### The host's side in a step -/

@[simp] theorem State.hostTurn_sample (s : State) :
    s.hostTurn.port.sample = s.port.nextInput := rfl
@[simp] theorem State.hostTurn_event (s : State) : s.hostTurn.port.event = none := rfl
@[simp] theorem State.hostTurn_pending (s : State) :
    s.hostTurn.port.pending = s.port.pending.tail := rfl
@[simp] theorem State.hostTurn_frame (s : State) :
    s.hostTurn.port.frame =
      if s.port.nextInput.presents && s.dirty then some s.fb else none := rfl
@[simp] theorem State.hostTurn_sampleNo (s : State) : s.hostTurn.port.sampleNo =
    if s.port.pending.isEmpty then s.port.sampleNo + 1 else s.port.sampleNo := rfl
@[simp] theorem HostPort.nextInput_nil (p : HostPort) (h : p.pending = []) :
    p.nextInput = Config.hostInput p.sampleNo := by
  simp [HostPort.nextInput, h]
@[simp] theorem HostPort.nextInput_cons (p : HostPort) (x : StepInput) (xs : List StepInput)
    (h : p.pending = x :: xs) : p.nextInput = x := by
  simp [HostPort.nextInput, h]

/-! ### Registers -/

theorem State.readReg_writeReg (s : State) (r q : Reg) (b : Byte) :
    (s.writeReg r b).readReg q = if q = r then b else s.readReg q := by
  rcases Decidable.em (q = r) with h | h
  · subst h
    simp [State.readReg, Vector.get_eq_getElem]
  · have h' : r.val ≠ q.val := fun e => h (Fin.ext e.symm)
    simp [State.readReg, Vector.get_eq_getElem, h, h']

@[simp] theorem State.readReg_writeReg_same (s : State) (r : Reg) (b : Byte) :
    (s.writeReg r b).readReg r = b := by
  simp [State.readReg_writeReg]

theorem State.readReg_writeFlagThen (s : State) (c : Bool) (r q : Reg) (b : Byte) :
    (s.writeFlagThen c r b).readReg q =
      if q = r then b else if q = flagReg then flagByte c else s.readReg q := by
  simp only [State.writeFlagThen, State.readReg_writeReg]

/-! ### Updates that leave the register file -/

@[simp] theorem State.readReg_setI (s : State) (a : Addr) (r : Reg) :
    (s.setI a).readReg r = s.readReg r := rfl
@[simp] theorem State.readReg_setMem (s : State) (m : Memory) (r : Reg) :
    (s.setMem m).readReg r = s.readReg r := rfl
@[simp] theorem State.readReg_setStack (s : State) (l : List Addr) (r : Reg) :
    (s.setStack l).readReg r = s.readReg r := rfl
@[simp] theorem State.readReg_setDT (s : State) (b : Byte) (r : Reg) :
    (s.setDT b).readReg r = s.readReg r := rfl
@[simp] theorem State.readReg_setST (s : State) (b : Byte) (r : Reg) :
    (s.setST b).readReg r = s.readReg r := rfl
@[simp] theorem State.readReg_setDisplay (s : State) (f : Frame) (r : Reg) :
    (s.setDisplay f).readReg r = s.readReg r := rfl
@[simp] theorem State.readReg_beginWait (s : State) (x : Reg) (r : Reg) :
    (s.beginWait x).readReg r = s.readReg r := rfl
@[simp] theorem State.readReg_endWait (s : State) (r : Reg) :
    (s.endWait).readReg r = s.readReg r := rfl
@[simp] theorem State.readReg_jump (s : State) (a : Addr) (r : Reg) :
    (s.jump a).readReg r = s.readReg r := rfl
@[simp] theorem State.readReg_advancePc (s : State) (r : Reg) :
    (s.advancePc).readReg r = s.readReg r := rfl
@[simp] theorem State.readReg_skipIf (s : State) (c : Bool) (r : Reg) :
    (s.skipIf c).readReg r = s.readReg r := rfl
@[simp] theorem State.readReg_raise (s : State) (c : FaultCause) (a : Addr) (r : Reg) :
    (s.raise c a).readReg r = s.readReg r := rfl
@[simp] theorem State.readReg_raiseHere (s : State) (c : FaultCause) (r : Reg) :
    (s.raiseHere c).readReg r = s.readReg r := rfl
@[simp] theorem State.readReg_diagnose (s : State) (w : Word) (r : Reg) :
    (s.diagnose w).readReg r = s.readReg r := rfl
@[simp] theorem State.readReg_advanceTimers (s : State) (r : Reg) :
    (s.advanceTimers).readReg r = s.readReg r := rfl
@[simp] theorem State.readReg_presentIf (s : State) (c : Bool) (r : Reg) :
    (s.presentIf c).readReg r = s.readReg r := rfl
@[simp] theorem State.readReg_hostTurn (s : State) (r : Reg) :
    (s.hostTurn).readReg r = s.readReg r := rfl
@[simp] theorem State.readReg_placeWord (s : State) (w : Word) (r : Reg) :
    (s.placeWord w).readReg r = s.readReg r := rfl

/-- A register read depends on the register file alone. -/
theorem State.readReg_congr {s t : State} (h : t.V = s.V) (r : Reg) : t.readReg r = s.readReg r := by
  simp [State.readReg, h]

end Sys2Proof.Machine
end

