-- ==== Sys2Proof/Laws/Memory.lean ====
section
/-! SUPPORT. The laws of memory: read after write, and that every memory operation keeps the
canonical form. -/

namespace Sys2Proof.Machine

@[simp] theorem Memory.byte_nil (a : Nat) : Memory.byte [] a = unlistedByte := rfl

/-- A weaker lower bound admits the same memory. -/
theorem Memory.wfFrom_mono {lo lo' : Nat} {m : Memory} (hle : lo' ≤ lo)
    (h : Memory.wfFrom lo m = true) : Memory.wfFrom lo' m = true := by
  cases m with
  | nil => rfl
  | cons c rest =>
    simp only [Memory.wfFrom, Bool.and_eq_true, decide_eq_true_eq] at h ⊢
    exact ⟨⟨⟨by omega, h.1.1.2⟩, h.1.2⟩, h.2⟩

/-- Below the lower bound of a canonical memory nothing is listed. -/
theorem Memory.byte_of_lt {m : Memory} {lo a : Nat} (h : Memory.wfFrom lo m = true) (ha : a < lo) :
    Memory.byte m a = unlistedByte := by
  induction m generalizing lo with
  | nil => rfl
  | cons c rest ih =>
    simp only [Memory.wfFrom, Bool.and_eq_true, decide_eq_true_eq] at h
    have hne : a ≠ c.1 := by omega
    simp only [Memory.byte, hne, if_false]
    exact ih h.2 (by omega)

theorem Memory.byte_cons_ne {a a' : Nat} (v : Byte) (rest : Memory) (hne : a' ≠ a) :
    Memory.byte (Memory.cons a v rest) a' = Memory.byte rest a' := by
  unfold Memory.cons
  split <;> simp [Memory.byte, hne]

/-- A write leaves every other address as it was, whatever the list (R53: "no other byte
changes"). -/
theorem Memory.byte_setByte_ne (m : Memory) {a a' : Nat} (v : Byte) (hne : a' ≠ a) :
    Memory.byte (Memory.setByte m a v) a' = Memory.byte m a' := by
  induction m with
  | nil => exact Memory.byte_cons_ne v [] hne
  | cons c rest ih =>
    unfold Memory.setByte
    split
    · exact Memory.byte_cons_ne v _ hne
    · split
      · next h =>
        have hb : a' ≠ c.1 := by omega
        rw [Memory.byte_cons_ne v rest hne]
        simp [Memory.byte, hb]
      · simp only [Memory.byte, ih]

/-- A read after a write to the same address gives the value written (R53). -/
theorem Memory.byte_setByte_same {m : Memory} {lo : Nat} (a : Nat) (v : Byte)
    (h : Memory.wfFrom lo m = true) : Memory.byte (Memory.setByte m a v) a = v := by
  have cons_same : ∀ {k : Nat} (l : Memory), Memory.wfFrom k l = true → a < k →
      Memory.byte (Memory.cons a v l) a = v := by
    intro k l hl hk
    unfold Memory.cons
    split
    · next hv => rw [Memory.byte_of_lt hl hk, hv]
    · simp [Memory.byte]
  induction m generalizing lo with
  | nil => exact cons_same (k := a + 1) [] rfl (by omega)
  | cons c rest ih =>
    have hc := h
    simp only [Memory.wfFrom, Bool.and_eq_true, decide_eq_true_eq] at h
    unfold Memory.setByte
    split
    · next hlt =>
      refine cons_same (k := c.1) _ ?_ hlt
      simp only [Memory.wfFrom, Bool.and_eq_true, decide_eq_true_eq]
      exact ⟨⟨⟨le_refl _, h.1.1.2⟩, h.1.2⟩, h.2⟩
    · split
      · next heq => exact cons_same (k := c.1 + 1) rest h.2 (by omega)
      · next hne => simp only [Memory.byte, hne, if_false]; exact ih h.2

/-- What memory reads as after a write. -/
theorem Memory.byte_setByte {m : Memory} (h : Memory.wf m = true) (a a' : Nat) (v : Byte) :
    Memory.byte (Memory.setByte m a v) a' = if a' = a then v else Memory.byte m a' := by
  split
  · next e => rw [e]; exact Memory.byte_setByte_same a v h
  · next e => exact Memory.byte_setByte_ne m v e

theorem Memory.wfFrom_cons {lo a : Nat} {v : Byte} {rest : Memory} (hlo : lo ≤ a)
    (ha : a < Config.memSize) (h : Memory.wfFrom (a + 1) rest = true) :
    Memory.wfFrom lo (Memory.cons a v rest) = true := by
  unfold Memory.cons
  split
  · exact Memory.wfFrom_mono (by omega) h
  · next hv =>
    simp only [Memory.wfFrom, Bool.and_eq_true, decide_eq_true_eq]
    exact ⟨⟨⟨hlo, ha⟩, hv⟩, h⟩

theorem Memory.wfFrom_setByte {m : Memory} {lo a : Nat} (v : Byte) (hlo : lo ≤ a)
    (ha : a < Config.memSize) (h : Memory.wfFrom lo m = true) :
    Memory.wfFrom lo (Memory.setByte m a v) = true := by
  induction m generalizing lo with
  | nil => exact Memory.wfFrom_cons hlo ha rfl
  | cons c rest ih =>
    simp only [Memory.wfFrom, Bool.and_eq_true, decide_eq_true_eq] at h
    unfold Memory.setByte
    split
    · next hlt =>
      refine Memory.wfFrom_cons hlo ha ?_
      simp only [Memory.wfFrom, Bool.and_eq_true, decide_eq_true_eq]
      exact ⟨⟨⟨by omega, h.1.1.2⟩, h.1.2⟩, h.2⟩
    · split
      · next heq => exact Memory.wfFrom_cons hlo ha (by rw [heq]; exact h.2)
      · next hlt hne =>
        simp only [Memory.wfFrom, Bool.and_eq_true, decide_eq_true_eq]
        exact ⟨h.1, ih (by omega) h.2⟩

/-- A write inside memory keeps the canonical form. -/
theorem Memory.wf_setByte {m : Memory} {a : Nat} (v : Byte) (ha : inMemory a = true)
    (h : Memory.wf m = true) : Memory.wf (Memory.setByte m a v) = true :=
  Memory.wfFrom_setByte v (Nat.zero_le a) (by simpa [inMemory] using ha) h

/-- Placing bytes keeps the canonical form. -/
theorem Memory.wf_setBytes {m : Memory} (a : Nat) (bs : List Byte) (h : Memory.wf m = true) :
    Memory.wf (Memory.setBytes m a bs) = true := by
  induction bs generalizing m a with
  | nil => exact h
  | cons b bs ih =>
    unfold Memory.setBytes
    refine ih (a + 1) ?_
    split
    · next hin => exact Memory.wf_setByte b hin h
    · exact h

/-- What memory reads as after bytes were placed: the bytes inside their range, the old contents
outside. -/
theorem Memory.byte_setBytes {m : Memory} (h : Memory.wf m = true) (a : Nat) (bs : List Byte)
    (a' : Nat) (hin : a' < Config.memSize) :
    Memory.byte (Memory.setBytes m a bs) a' =
      if a ≤ a' then (bs[a' - a]?).getD (Memory.byte m a') else Memory.byte m a' := by
  induction bs generalizing m a with
  | nil => simp [Memory.setBytes]
  | cons b bs ih =>
    unfold Memory.setBytes
    have hwf : Memory.wf (if inMemory a then Memory.setByte m a b else m) = true := by
      split
      · next hi => exact Memory.wf_setByte b hi h
      · exact h
    have hbyte : Memory.byte (if inMemory a then Memory.setByte m a b else m) a' =
        if a' = a then b else Memory.byte m a' := by
      split
      · exact Memory.byte_setByte h a a' b
      · next hi =>
        have : a' ≠ a := by simp [inMemory] at hi; omega
        simp [this]
    rw [ih hwf (a + 1), hbyte]
    rcases Nat.lt_trichotomy a' a with hlt | heq | hgt
    · have h1 : ¬ a + 1 ≤ a' := by omega
      have h2 : ¬ a ≤ a' := by omega
      have h3 : a' ≠ a := by omega
      simp [h1, h2, h3]
    · subst heq; simp
    · have h1 : a + 1 ≤ a' := by omega
      have h2 : a ≤ a' := by omega
      have h3 : a' ≠ a := by omega
      have h4 : a' - a = (a' - (a + 1)) + 1 := by omega
      simp [h1, h2, h3, h4]

/-! ### The two primitives -/

/-- An address is in memory exactly when it is at most 4095 (R51). -/
theorem inMemory_iff (a : Nat) : inMemory a = true ↔ a ≤ 4095 := by
  rw [inMemory, decide_eq_true_iff]
  show a < 4096 ↔ _
  omega

theorem inMemory_eq_false_iff (a : Nat) : inMemory a = false ↔ a > 4095 := by
  rw [← Bool.not_eq_true, inMemory_iff]
  omega

/-- Everything `MemRead` can do (R52). -/
theorem State.memRead_cases (s : State) (a : Nat) :
    (inMemory a = true ∧ s.memRead a = .ok (Memory.byte s.mem a)) ∨
    (inMemory a = false ∧ s.memRead a = .error (.memOutOfBounds a)) := by
  unfold State.memRead
  cases h : inMemory a <;> simp

/-- Everything `MemWrite` can do (R53). -/
theorem State.memWrite_cases (s : State) (a : Nat) (v : Byte) :
    (inMemory a = true ∧ s.memWrite a v = .ok (s.setMem (Memory.setByte s.mem a v))) ∨
    (inMemory a = false ∧ s.memWrite a v = .error (.memOutOfBounds a)) := by
  unfold State.memWrite
  cases h : inMemory a <;> simp

@[simp] theorem State.memRead_ok {s : State} {a : Nat} (h : a < Config.memSize) :
    s.memRead a = .ok (Memory.byte s.mem a) := by
  simp [State.memRead, inMemory, h]

@[simp] theorem State.memRead_error {s : State} {a : Nat} (h : ¬ a < Config.memSize) :
    s.memRead a = .error (.memOutOfBounds a) := by
  simp [State.memRead, inMemory, h]

end Sys2Proof.Machine
end

