-- ==== Sys2Proof/Laws/Ops.lean ====
section
/-! SUPPORT. For each shared operation, what it can do, said once. -/

namespace Sys2Proof.Machine

/-! ### Block stores -/

/-- The memory after byte writes that are all in range. -/
def Memory.writes (m : Memory) (l : List (Nat × Byte)) : Memory :=
  l.foldl (fun m p => Memory.setByte m p.1 p.2) m

theorem Memory.wf_writes {m : Memory} (l : List (Nat × Byte)) (h : Memory.wf m = true)
    (hin : ∀ p ∈ l, inMemory p.1 = true) : Memory.wf (Memory.writes m l) = true := by
  induction l generalizing m with
  | nil => exact h
  | cons p l ih =>
    exact ih (Memory.wf_setByte p.2 (hin p (by simp)) h) fun q hq => hin q (by simp [hq])

/-- An address that no write of the list names keeps its byte. -/
theorem Memory.byte_writes_other (m : Memory) (l : List (Nat × Byte)) (a : Nat)
    (h : ∀ p ∈ l, p.1 ≠ a) : Memory.byte (Memory.writes m l) a = Memory.byte m a := by
  induction l generalizing m with
  | nil => rfl
  | cons p l ih =>
    have hp : a ≠ p.1 := fun e => h p (by simp) e.symm
    show Memory.byte (Memory.writes (Memory.setByte m p.1 p.2) l) a = _
    rw [ih _ fun q hq => h q (by simp [hq]), Memory.byte_setByte_ne m p.2 hp]

/-- Writes to different addresses each leave their value. -/
theorem Memory.byte_writes_mem {m : Memory} {l : List (Nat × Byte)} (h : Memory.wf m = true)
    (hin : ∀ p ∈ l, inMemory p.1 = true) (hnd : (l.map Prod.fst).Nodup) {a : Nat} {v : Byte}
    (hm : (a, v) ∈ l) : Memory.byte (Memory.writes m l) a = v := by
  induction l generalizing m with
  | nil => simp at hm
  | cons p l ih =>
    have hwf := Memory.wf_setByte p.2 (hin p (by simp)) h
    simp only [List.map_cons, List.nodup_cons] at hnd
    show Memory.byte (Memory.writes (Memory.setByte m p.1 p.2) l) a = v
    rcases List.mem_cons.mp hm with e | hl
    · rw [Memory.byte_writes_other, ← e]
      · exact Memory.byte_setByte_same _ _ h
      · intro q hq e'
        refine hnd.1 ?_
        rw [← e]
        exact List.mem_map.mpr ⟨q, hq, e'⟩
    · exact ih hwf (fun q hq => hin q (by simp [hq])) hnd.2 hl

/-- All writes in range: they are all made and nothing is raised. -/
theorem State.storeAll_ok (l : List (Nat × Byte)) (s : State)
    (hin : ∀ p ∈ l, inMemory p.1 = true) :
    State.storeAll l s = s.setMem (Memory.writes s.mem l) := by
  induction l generalizing s with
  | nil => rfl
  | cons p l ih =>
    have hp := hin p (by simp)
    simp only [State.storeAll, State.memWrite, hp, if_true]
    rw [ih _ fun q hq => hin q (by simp [hq])]
    rfl

/-- The first write out of range raises, and the writes before it stand (R53, R204). -/
theorem State.storeAll_fault (l₁ l₂ : List (Nat × Byte)) (a : Nat) (v : Byte) (s : State)
    (hin : ∀ p ∈ l₁, inMemory p.1 = true) (ha : inMemory a = false) :
    State.storeAll (l₁ ++ (a, v) :: l₂) s =
      (s.setMem (Memory.writes s.mem l₁)).raiseHere (.memOutOfBounds a) := by
  induction l₁ generalizing s with
  | nil => simp [State.storeAll, State.memWrite, ha, Memory.writes]
  | cons p l ih =>
    have hp := hin p (by simp)
    simp only [List.cons_append, State.storeAll, State.memWrite, hp, if_true]
    rw [ih _ fun q hq => hin q (by simp [hq])]
    rfl

/-- Everything a block store can do: some writes in range are made, and then it ends, or raises at
an address out of range. -/
theorem State.storeAll_cases (l : List (Nat × Byte)) (s : State) :
    ∃ l₁, (∀ p ∈ l₁, p ∈ l ∧ inMemory p.1 = true) ∧
      (State.storeAll l s = s.setMem (Memory.writes s.mem l₁) ∨
        ∃ a, inMemory a = false ∧ State.storeAll l s =
          (s.setMem (Memory.writes s.mem l₁)).raiseHere (.memOutOfBounds a)) := by
  induction l generalizing s with
  | nil => exact ⟨[], by simp, .inl rfl⟩
  | cons p l ih =>
    rcases s.memWrite_cases p.1 p.2 with ⟨hin, hw⟩ | ⟨hout, hw⟩
    · obtain ⟨l₁, hl, h⟩ := ih (s.setMem (Memory.setByte s.mem p.1 p.2))
      refine ⟨p :: l₁, ?_, ?_⟩
      · intro q hq
        rcases List.mem_cons.mp hq with e | hq
        · subst e; exact ⟨by simp, hin⟩
        · exact ⟨by simp [(hl q hq).1], (hl q hq).2⟩
      · simp only [State.storeAll, hw]
        exact h
    · exact ⟨[], by simp, .inr ⟨p.1, hout, by simp [State.storeAll, hw, Memory.writes]⟩⟩

/-! ### Block loads -/

/-- The state after register loads whose addresses are all in range. -/
def State.loads (s : State) (l : List (Nat × Reg)) : State :=
  l.foldl (fun t p => t.writeReg p.2 (Memory.byte s.mem p.1)) s

/-- Loads change the register file alone. -/
theorem State.loads_eq (s : State) (l : List (Nat × Reg)) :
    ∃ V, State.loads s l = { s with V := V } := by
  have gen : ∀ (l : List (Nat × Reg)) (t : State), ∃ V,
      l.foldl (fun t p => t.writeReg p.2 (Memory.byte s.mem p.1)) t = { t with V := V } := by
    intro l
    induction l with
    | nil => exact fun t => ⟨t.V, rfl⟩
    | cons p l ih =>
      intro t
      obtain ⟨V, h⟩ := ih (t.writeReg p.2 (Memory.byte s.mem p.1))
      exact ⟨V, by rw [List.foldl_cons, h]; rfl⟩
  exact gen l s

/-- A register that no load names keeps its value; a register that one load names holds its byte. -/
theorem State.readReg_loads (s : State) (l : List (Nat × Reg)) (hnd : (l.map Prod.snd).Nodup)
    (r : Reg) :
    (State.loads s l).readReg r =
      match l.find? (fun p => p.2 == r) with
      | some p => Memory.byte s.mem p.1
      | none => s.readReg r := by
  have gen : ∀ (l : List (Nat × Reg)) (t : State), (l.map Prod.snd).Nodup →
      State.readReg (l.foldl (fun t p => t.writeReg p.2 (Memory.byte s.mem p.1)) t) r =
      match l.find? (fun p => p.2 == r) with
      | some p => Memory.byte s.mem p.1
      | none => t.readReg r := by
    intro l
    induction l with
    | nil => exact fun _ _ => rfl
    | cons p l ih =>
      intro t hnd
      simp only [List.map_cons, List.nodup_cons] at hnd
      rw [List.foldl_cons, ih _ hnd.2]
      rcases Decidable.em (p.2 = r) with e | e
      · have hnone : l.find? (fun p => p.2 == r) = none := by
          rw [List.find?_eq_none]
          intro q hq hqr
          exact hnd.1 (List.mem_map.mpr ⟨q, hq, by rw [e]; simpa using hqr⟩)
        simp [hnone, e]
      · have e' : ¬ r = p.2 := fun h => e h.symm
        simp only [List.find?_cons, beq_eq_false_iff_ne.mpr e, State.readReg_writeReg, e', if_false]
  exact gen l s hnd

/-- All addresses in range: every register is loaded and nothing is raised. -/
theorem State.loadAll_ok (l : List (Nat × Reg)) (s : State)
    (hin : ∀ p ∈ l, inMemory p.1 = true) : State.loadAll l s = State.loads s l := by
  have gen : ∀ (l : List (Nat × Reg)) (t : State), t.mem = s.mem →
      (∀ p ∈ l, inMemory p.1 = true) →
      State.loadAll l t = l.foldl (fun t p => t.writeReg p.2 (Memory.byte s.mem p.1)) t := by
    intro l
    induction l with
    | nil => exact fun _ _ _ => rfl
    | cons p l ih =>
      intro t ht hin
      have hp := hin p (by simp)
      simp only [State.loadAll, State.memRead, hp, if_true, List.foldl_cons, ht]
      exact ih _ (by simp [ht]) fun q hq => hin q (by simp [hq])
  exact gen l s rfl hin

/-- The first address out of range raises, and the loads before it stand (R52, R204). -/
theorem State.loadAll_fault (l₁ l₂ : List (Nat × Reg)) (a : Nat) (r : Reg) (s : State)
    (hin : ∀ p ∈ l₁, inMemory p.1 = true) (ha : inMemory a = false) :
    State.loadAll (l₁ ++ (a, r) :: l₂) s =
      (State.loads s l₁).raiseHere (.memOutOfBounds a) := by
  have gen : ∀ (l₁ : List (Nat × Reg)) (t : State), t.mem = s.mem →
      (∀ p ∈ l₁, inMemory p.1 = true) →
      State.loadAll (l₁ ++ (a, r) :: l₂) t =
        State.raiseHere (l₁.foldl (fun t p => t.writeReg p.2 (Memory.byte s.mem p.1)) t)
          (.memOutOfBounds a) := by
    intro l₁
    induction l₁ with
    | nil => intro t _ _; simp [State.loadAll, State.memRead, ha]
    | cons p l ih =>
      intro t ht hin
      have hp := hin p (by simp)
      simp only [List.cons_append, State.loadAll, State.memRead, hp, if_true, List.foldl_cons, ht]
      exact ih _ (by simp [ht]) fun q hq => hin q (by simp [hq])
  exact gen l₁ s rfl hin

/-- The registers of a block transfer, each loaded from its own indexed address. -/
theorem State.readReg_loads_indexed (s : State) {l : List Reg} (hl : l.Nodup) (r : Reg) :
    (State.loads s (l.map fun q => (s.indexed q.val, q))).readReg r =
      if r ∈ l then Memory.byte s.mem (s.indexed r.val) else s.readReg r := by
  have hsnd : ((l.map fun q => (s.indexed q.val, q)).map Prod.snd).Nodup := by
    have : (l.map fun q => (s.indexed q.val, q)).map Prod.snd = l := by
      rw [List.map_map]; exact List.map_id l
    rw [this]; exact hl
  have hfind : ∀ l : List Reg, (l.map fun q => (s.indexed q.val, q)).find? (fun p => p.2 == r) =
      if r ∈ l then some (s.indexed r.val, r) else none := by
    intro l
    induction l with
    | nil => rfl
    | cons a l ih =>
      simp only [List.map_cons, List.find?_cons]
      rcases Decidable.em (a = r) with h | h
      · simp [h]
      · have h' : ¬ r = a := fun e => h e.symm
        simp only [beq_eq_false_iff_ne.mpr h, ih, List.mem_cons, h', false_or]
  rw [State.readReg_loads _ _ hsnd, hfind]
  by_cases h : r ∈ l <;> simp [h]

/-- Everything a block load can do: it changes registers of its list alone, and then ends, or raises
at an address out of range. -/
theorem State.loadAll_cases (l : List (Nat × Reg)) (s : State) :
    ∃ V : Vector Byte 16, (∀ r, r ∉ l.map Prod.snd → V.get r = s.readReg r) ∧
      (State.loadAll l s = { s with V := V } ∨
        ∃ a, inMemory a = false ∧
          State.loadAll l s = State.raiseHere { s with V := V } (.memOutOfBounds a)) := by
  induction l generalizing s with
  | nil => exact ⟨s.V, fun _ _ => rfl, .inl rfl⟩
  | cons p l ih =>
    rcases s.memRead_cases p.1 with ⟨_, hr⟩ | ⟨hout, hr⟩
    · obtain ⟨V, hV, h⟩ := ih (s.writeReg p.2 (Memory.byte s.mem p.1))
      refine ⟨V, fun r hn => ?_, ?_⟩
      · simp only [List.map_cons, List.mem_cons, not_or] at hn
        rw [hV r hn.2, State.readReg_writeReg, if_neg hn.1]
      · simp only [State.loadAll, hr]
        exact h
    · exact ⟨s.V, fun _ _ => rfl, .inr ⟨p.1, hout, by simp [State.loadAll, hr]⟩⟩

/-! ### Registers of a block transfer -/

/-- The registers of a block transfer are those up to `x`. -/
theorem mem_regsUpTo (x r : Reg) : r ∈ regsUpTo x ↔ r.val ≤ x.val := by
  revert x r
  decide

theorem regsUpTo_nodup (x : Reg) : (regsUpTo x).Nodup := by
  revert x
  decide

/-! ### Operands -/

@[simp] theorem toNat_addrOfNNN (nnn : BitVec 12) : (addrOfNNN nnn).toNat = nnn.toNat := by
  have := nnn.isLt
  simp only [addrOfNNN, BitVec.toNat_setWidth]
  omega

theorem toNat_glyphAddr (v : Byte) :
    (glyphAddr v).toNat = Config.fontBase.val + 5 * v.toNat := by
  have := Config.fontBase.isLt
  have := v.isLt
  simp only [glyphAddr, BitVec.toNat_ofNat]
  omega

/-! ### Call stack -/

/-- Everything `Push` can do (R28). -/
theorem State.push_cases (s : State) (v : Addr) :
    (s.stack.length < Config.stackDepth ∧ s.push v = .ok (s.setStack (v :: s.stack))) ∨
    (¬ s.stack.length < Config.stackDepth ∧ s.push v = .error (.stackOverflow v)) := by
  unfold State.push
  rcases Decidable.em (s.stack.length < Config.stackDepth) with h | h <;> simp [h]

/-- Everything `Pop` can do (R29). -/
theorem State.pop_cases (s : State) :
    (∃ a rest, s.stack = a :: rest ∧ s.pop = .ok (a, s.setStack rest)) ∨
    (s.stack = [] ∧ s.pop = .error .stackUnderflow) := by
  unfold State.pop
  cases h : s.stack with
  | nil => exact .inr ⟨rfl, rfl⟩
  | cons a rest => exact .inl ⟨a, rest, rfl, rfl⟩

/-! ### Fetch -/

/-- Everything `Fetch` can do (R55): the big-endian word, or the first byte address out of range. -/
theorem State.fetch_cases (s : State) :
    (s.pc.toNat + 1 < Config.memSize ∧
      s.fetch = .ok (wordOfBytes (Memory.byte s.mem s.pc.toNat) (Memory.byte s.mem (s.pc.toNat + 1)))) ∨
    (¬ s.pc.toNat + 1 < Config.memSize ∧
      s.fetch = .error (.memOutOfBounds (max s.pc.toNat Config.memSize))) := by
  unfold State.fetch
  rcases Nat.lt_or_ge (s.pc.toNat + 1) Config.memSize with h | h
  · have h0 : s.pc.toNat < Config.memSize := by omega
    exact .inl ⟨h, by rw [State.memRead_ok h0, State.memRead_ok h]⟩
  · refine .inr ⟨by omega, ?_⟩
    rcases Nat.lt_or_ge s.pc.toNat Config.memSize with h0 | h0
    · have h1 : ¬ s.pc.toNat + 1 < Config.memSize := by omega
      have h2 : max s.pc.toNat Config.memSize = s.pc.toNat + 1 := by omega
      rw [State.memRead_ok h0, State.memRead_error h1, h2]
    · have h1 : ¬ s.pc.toNat < Config.memSize := by omega
      have h2 : max s.pc.toNat Config.memSize = s.pc.toNat := by omega
      rw [State.memRead_error h1, h2]

/-! ### Keys -/

theorem firstDown_eq_none (keys : BitVec 16) (l : List Reg) :
    firstDown keys l = none ↔ ∀ k ∈ l, keys.getLsbD k.val = false := by
  induction l with
  | nil => simp [firstDown]
  | cons k l ih =>
    unfold firstDown
    simp only [List.forall_mem_cons]
    cases h : keys.getLsbD k.val with
    | false => simpa only [Bool.false_eq_true, if_false, true_and] using ih
    | true => simp

theorem mem_allKeys (k : Reg) : k ∈ allKeys := by
  revert k
  decide

/-- No lowest key exactly when no key is down. -/
theorem lowestKey_eq_none (keys : BitVec 16) : lowestKey keys = none ↔ keys = 0 := by
  rw [lowestKey, firstDown_eq_none]
  constructor
  · intro h
    apply BitVec.eq_of_getLsbD_eq
    intro i hi
    simpa using h ⟨i, hi⟩ (mem_allKeys _)
  · intro h k _
    simp [h]

/-- The first key down in a strictly rising list is the least one down. -/
theorem firstDown_eq_some {keys : BitVec 16} {l : List Reg} {k : Reg} (hl : l.Pairwise (· < ·))
    (h : firstDown keys l = some k) :
    keys.getLsbD k.val = true ∧ ∀ j ∈ l, j < k → keys.getLsbD j.val = false := by
  induction l with
  | nil => simp [firstDown] at h
  | cons a l ih =>
    unfold firstDown at h
    rw [List.pairwise_cons] at hl
    split at h
    · next ha =>
      obtain rfl : a = k := by simpa using h
      refine ⟨ha, fun j hj hlt => ?_⟩
      rcases List.mem_cons.mp hj with e | hj
      · exact absurd (e ▸ hlt) (lt_irrefl _)
      · exact absurd (lt_trans hlt (hl.1 j hj)) (lt_irrefl _)
    · next ha =>
      obtain ⟨h1, h2⟩ := ih hl.2 h
      refine ⟨h1, fun j hj hlt => ?_⟩
      rcases List.mem_cons.mp hj with e | hj
      · rw [e]; simpa using ha
      · exact h2 j hj hlt

/-- The lowest key is down and every lower one is up (R42). -/
theorem lowestKey_eq_some {keys : BitVec 16} {k : Reg} (h : lowestKey keys = some k) :
    keys.getLsbD k.val = true ∧ ∀ j : Reg, j < k → keys.getLsbD j.val = false := by
  obtain ⟨h1, h2⟩ := firstDown_eq_some (by decide) h
  exact ⟨h1, fun j hj => h2 j (mem_allKeys j) hj⟩

end Sys2Proof.Machine
end

