-- ==== Sys2Proof/Laws/Display.lean ====
section
/-! SUPPORT. What the sprite engine does to one pixel. -/

namespace Sys2Proof.Machine

theorem Frame.pixel_flip (f : Frame) (row r : Fin 32) (col c : Fin 64) :
    Frame.pixel (Frame.flip f row col) r c =
      (Frame.pixel f r c != decide (r = row ∧ c = col)) := by
  rcases Decidable.em (r = row) with hr | hr
  · subst hr
    rcases Decidable.em (c = col) with hc | hc
    · subst hc
      simp [Frame.pixel, Frame.flip, Vector.get_eq_getElem]
    · have hc' : col.val ≠ c.val := fun e => hc (Fin.ext e.symm)
      simp [Frame.pixel, Frame.flip, Vector.get_eq_getElem, hc, hc']
  · have hr' : row.val ≠ r.val := fun e => hr (Fin.ext e.symm)
    simp [Frame.pixel, Frame.flip, Vector.get_eq_getElem, hr, hr']

theorem Frame.pixel_blank (r : Fin 32) (c : Fin 64) : Frame.pixel Frame.blank r c = false := by
  simp [Frame.pixel, Frame.blank, Vector.get_eq_getElem]

/-- The sprite bits that the columns `from` to `from + m - 1` of a sprite row put on a pixel of its
framebuffer row. -/
def rowBit (b : Byte) (x0 first m : Nat) (c : Fin 64) : Bool :=
  decide (x0 + first ≤ c.val ∧ c.val < x0 + first + m) && spriteBit b (c.val - x0)

/-- Everything the inner loop does: the pixels under its 1 bits are inverted, and a set pixel under
one of them is a collision. -/
theorem drawColumns_spec (b : Byte) (row : Fin 32) (x0 m : Nat) : ∀ (first : Nat) (k : Canvas),
    (∀ r c, Frame.pixel (drawColumns b row x0 (List.range' first m) k).fb r c =
      (Frame.pixel k.fb r c != (decide (r = row) && rowBit b x0 first m c))) ∧
    ((drawColumns b row x0 (List.range' first m) k).collision = true ↔
      k.collision = true ∨ ∃ c, rowBit b x0 first m c = true ∧ Frame.pixel k.fb row c = true) := by
  induction m with
  | zero =>
    intro first k
    have hz : ∀ c : Fin 64, rowBit b x0 first 0 c = false := by
      intro c
      simp only [rowBit, Bool.and_eq_false_iff, decide_eq_false_iff_not]
      left; omega
    simp [drawColumns, hz]
  | succ m ih =>
    intro first k
    rw [List.range'_succ]
    unfold drawColumns
    split
    · next h =>
      obtain ⟨ih1, ih2⟩ :=
        ih (first + 1) (if spriteBit b first then k.hit row ⟨x0 + first, h⟩ else k)
      have hsplit : ∀ c : Fin 64, rowBit b x0 first (m + 1) c =
          (rowBit b x0 (first + 1) m c ||
            (decide (c = (⟨x0 + first, h⟩ : Fin 64)) && spriteBit b first)) := by
        intro c
        rcases Decidable.em (c.val = x0 + first) with e | e
        · have e1 : c = (⟨x0 + first, h⟩ : Fin 64) := Fin.ext e
          have e2 : c.val - x0 = first := by omega
          have e3 : ¬ (x0 + (first + 1) ≤ c.val ∧ c.val < x0 + (first + 1) + m) := by omega
          have e4 : x0 + first ≤ c.val ∧ c.val < x0 + first + (m + 1) := by omega
          simp only [rowBit, e2, e3, e4, decide_false, decide_true, Bool.false_and, Bool.true_and,
            Bool.false_or, and_self]
          simp [e1]
        · have e1 : c ≠ (⟨x0 + first, h⟩ : Fin 64) := fun q => e (congrArg Fin.val q)
          have e2 : (x0 + (first + 1) ≤ c.val ∧ c.val < x0 + (first + 1) + m) ↔
              (x0 + first ≤ c.val ∧ c.val < x0 + first + (m + 1)) := by omega
          simp only [rowBit, e2, e1, decide_false, Bool.false_and, Bool.or_false]
      have hout : rowBit b x0 (first + 1) m ⟨x0 + first, h⟩ = false := by
        simp only [rowBit, Bool.and_eq_false_iff, decide_eq_false_iff_not]
        left; omega
      cases hb : spriteBit b first with
      | false =>
        simp only [hb, Bool.false_eq_true, if_false] at ih1 ih2
        simp only [hsplit, hb, Bool.and_false, Bool.or_false, Bool.false_eq_true, if_false]
        exact ⟨ih1, ih2⟩
      | true =>
        simp only [hb, if_true] at ih1 ih2
        simp only [hsplit, hb, Bool.and_true, if_true]
        constructor
        · intro r c
          rw [ih1 r c]
          simp only [Canvas.hit, Frame.pixel_flip]
          rcases Decidable.em (c = (⟨x0 + first, h⟩ : Fin 64)) with e | e
          · subst e
            simp [hout]
          · simp [e]
        · rw [ih2]
          simp only [Canvas.hit, Frame.pixel_flip, Bool.or_eq_true, decide_eq_true_eq]
          constructor
          · rintro ((hk | hp) | ⟨c, hc, hp⟩)
            · exact .inl hk
            · exact .inr ⟨_, .inr rfl, hp⟩
            · refine .inr ⟨c, .inl hc, ?_⟩
              have : c ≠ (⟨x0 + first, h⟩ : Fin 64) := by
                intro e; rw [e, hout] at hc; exact absurd hc (by decide)
              simpa [this] using hp
          · rintro (hk | ⟨c, hc | hc, hp⟩)
            · exact .inl (.inl hk)
            · have : c ≠ (⟨x0 + first, h⟩ : Fin 64) := by
                intro e; rw [e, hout] at hc; exact absurd hc (by decide)
              exact .inr ⟨c, hc, by simpa [this] using hp⟩
            · exact .inl (.inr (hc ▸ hp))
    · next h =>
      have hz : ∀ c : Fin 64, rowBit b x0 first (m + 1) c = false := by
        intro c
        simp only [rowBit, Bool.and_eq_false_iff, decide_eq_false_iff_not]
        left; omega
      simp [hz]

/-- The sprite bit that the rows `first` to `first + m - 1` of a sprite put on a pixel (R160, R162):
0 outside the sprite's window. -/
def spriteOn (mem : Memory) (base x0 y0 first m : Nat) (r : Fin 32) (c : Fin 64) : Bool :=
  decide (y0 + first ≤ r.val ∧ r.val < y0 + first + m) &&
    rowBit (Memory.byte mem (base + (r.val - y0))) x0 0 8 c

/-- Everything the outer loop does: the pixels under 1 bits of the sprite's rows are inverted, and a
set pixel under one of them is a collision (R162, R164). -/
theorem drawRows_spec (mem : Memory) (base x0 y0 m : Nat) : ∀ (first : Nat) (k : Canvas),
    (∀ r c, Frame.pixel (drawRows mem base x0 y0 (List.range' first m) k).fb r c =
      (Frame.pixel k.fb r c != spriteOn mem base x0 y0 first m r c)) ∧
    ((drawRows mem base x0 y0 (List.range' first m) k).collision = true ↔
      k.collision = true ∨
        ∃ r c, spriteOn mem base x0 y0 first m r c = true ∧ Frame.pixel k.fb r c = true) := by
  induction m with
  | zero =>
    intro first k
    have hz : ∀ r c, spriteOn mem base x0 y0 first 0 r c = false := by
      intro r c
      simp only [spriteOn, Bool.and_eq_false_iff, decide_eq_false_iff_not]
      left; omega
    simp [drawRows, hz]
  | succ m ih =>
    intro first k
    rw [List.range'_succ]
    unfold drawRows
    split
    · next h =>
      have hcols : spriteColumns = List.range' 0 8 := by decide
      rw [hcols]
      set b := Memory.byte mem (base + first) with hb
      set row : Fin 32 := ⟨y0 + first, h⟩ with hrow
      obtain ⟨hc1, hc2⟩ := drawColumns_spec b row x0 8 0 k
      obtain ⟨ih1, ih2⟩ := ih (first + 1) (drawColumns b row x0 (List.range' 0 8) k)
      have hsplit : ∀ r c, spriteOn mem base x0 y0 first (m + 1) r c =
          (spriteOn mem base x0 y0 (first + 1) m r c || (decide (r = row) && rowBit b x0 0 8 c)) := by
        intro r c
        rcases Decidable.em (r.val = y0 + first) with e | e
        · have e1 : r = row := Fin.ext e
          have e2 : r.val - y0 = first := by omega
          have e3 : ¬ (y0 + (first + 1) ≤ r.val ∧ r.val < y0 + (first + 1) + m) := by omega
          have e4 : y0 + first ≤ r.val ∧ r.val < y0 + first + (m + 1) := by omega
          simp only [spriteOn, e2, e3, e4, decide_false, decide_true, Bool.false_and, Bool.true_and,
            Bool.false_or, and_self, ← hb]
          simp [e1]
        · have e1 : r ≠ row := fun q => e (congrArg Fin.val q)
          have e2 : (y0 + (first + 1) ≤ r.val ∧ r.val < y0 + (first + 1) + m) ↔
              (y0 + first ≤ r.val ∧ r.val < y0 + first + (m + 1)) := by omega
          simp only [spriteOn, e2, e1, decide_false, Bool.false_and, Bool.or_false]
      have hout : ∀ c, spriteOn mem base x0 y0 (first + 1) m row c = false := by
        intro c
        simp only [spriteOn, Bool.and_eq_false_iff, decide_eq_false_iff_not]
        left; show ¬ (y0 + (first + 1) ≤ y0 + first ∧ _); omega
      constructor
      · intro r c
        rw [ih1, hc1, hsplit]
        rcases Decidable.em (r = row) with e | e
        · rw [e, hout]; simp
        · simp [e]
      · rw [ih2, hc2]
        simp only [hsplit, hc1, Bool.or_eq_true, Bool.and_eq_true, decide_eq_true_eq]
        constructor
        · rintro ((hk | ⟨c, hcb, hp⟩) | ⟨r, c, hs, hp⟩)
          · exact .inl hk
          · exact .inr ⟨row, c, .inr ⟨rfl, hcb⟩, hp⟩
          · have : r ≠ row := by
              intro e; rw [e, hout] at hs; exact absurd hs (by decide)
            exact .inr ⟨r, c, .inl hs, by simpa [this] using hp⟩
        · rintro (hk | ⟨r, c, hs | ⟨hr, hcb⟩, hp⟩)
          · exact .inl (.inl hk)
          · have : r ≠ row := by
              intro e; rw [e, hout] at hs; exact absurd hs (by decide)
            exact .inr ⟨r, c, hs, by simpa [this] using hp⟩
          · exact .inl (.inr ⟨c, hcb, hr ▸ hp⟩)
    · next h =>
      have hz : ∀ r c, spriteOn mem base x0 y0 first (m + 1) r c = false := by
        intro r c
        simp only [spriteOn, Bool.and_eq_false_iff, decide_eq_false_iff_not]
        left; omega
      simp [hz]

/-- Everything the draw of `Dxyn` does to the framebuffer and the collision flag. -/
theorem State.drawn_spec (s : State) (x y : Reg) (n : Nibble) :
    (∀ r c, Frame.pixel (s.drawn x y n).fb r c =
      (Frame.pixel s.fb r c != spriteOn s.mem s.I.toNat (startColumn (s.readReg x))
        (startRow (s.readReg y)) 0 n.toNat r c)) ∧
    ((s.drawn x y n).collision = true ↔
      ∃ r c, spriteOn s.mem s.I.toNat (startColumn (s.readReg x)) (startRow (s.readReg y)) 0 n.toNat
        r c = true ∧ Frame.pixel s.fb r c = true) := by
  have h := drawRows_spec s.mem s.I.toNat (startColumn (s.readReg x)) (startRow (s.readReg y))
    n.toNat 0 { fb := s.fb, collision := false }
  unfold State.drawn
  rw [List.range_eq_range']
  simpa using h

/-- The eager check of `Dxyn` passes (R162). -/
theorem spriteFault_none {base n : Nat} (h : n = 0 ∨ base + n ≤ 4096) :
    spriteFault base n = none := by
  unfold spriteFault
  rw [if_neg]
  simp only [Config.memSize]
  omega

/-- The eager check of `Dxyn` fails at the lowest address out of range (R162). -/
theorem spriteFault_some {base n : Nat} (hn : n ≠ 0) (h : base + n > 4096) :
    spriteFault base n = some (max base 4096) := by
  unfold spriteFault
  rw [if_pos]
  · rfl
  · simp only [Config.memSize]
    omega

end Sys2Proof.Machine
end

