-- ==== Sys2Proof/Laws/PerInstr.lean ====
section
/-! SUPPORT. Statements about every instruction as syntax, one lemma per constructor. -/

namespace Sys2Proof.Laws.RowMatch

/-- The word of the instruction has the selecting bits of the instruction's own row of R74, and that
row is in the table. -/
def Statement (i : Instr) : Prop :=
  encode i &&& i.rowMask = i.rowMatch ∧ (i.rowMask, i.rowMatch) ∈ opcodeRows

theorem nibble_and_all (a : Nibble) : a &&& 15#4 = a := by
  revert a
  decide

theorem byte_and_all (b : Byte) : b &&& 255#8 = b := by
  revert b
  decide

/-! ### The three masks of R74 on the three shapes of words -/

theorem and_opXNN (a b : Nibble) (nn : Byte) : wordXNN a b nn &&& 0xF000 = wordXNN a 0 0 := by
  have h : (0xF000 : Word) = wordXNN 0xF 0 0 := by decide
  rw [h, wordXNN_and]
  simp [nibble_and_all]

theorem and_selXNN (a b : Nibble) (nn : Byte) : wordXNN a b nn &&& 0xF0FF = wordXNN a 0 nn := by
  have h : (0xF0FF : Word) = wordXNN 0xF 0 0xFF := by decide
  rw [h, wordXNN_and]
  simp [nibble_and_all, byte_and_all]

theorem and_opNNN (a : Nibble) (nnn : BitVec 12) : wordNNN a nnn &&& 0xF000 = wordNNN a 0 := by
  have h : (0xF000 : Word) = wordNNN 0xF 0 := by decide
  rw [h, wordNNN_and]
  simp [nibble_and_all]

theorem and_opWord4 (a b c d : Nibble) : word4 a b c d &&& 0xF000 = word4 a 0 0 0 := by
  have h : (0xF000 : Word) = word4 0xF 0 0 0 := by decide
  rw [h, word4_and]
  simp [nibble_and_all]

theorem and_selWord4 (a b c d : Nibble) : word4 a b c d &&& 0xF00F = word4 a 0 0 d := by
  have h : (0xF00F : Word) = word4 0xF 0 0 0xF := by decide
  rw [h, word4_and]
  simp [nibble_and_all]

/-! ### One lemma per instruction -/

theorem cls (x : Nibble) : Statement (.cls x) :=
  ⟨by rw [encode, Instr.rowMask, and_selXNN]; rfl, by simp [Instr.rowMask, Instr.rowMatch, opcodeRows]⟩

theorem ret (x : Nibble) : Statement (.ret x) :=
  ⟨by rw [encode, Instr.rowMask, and_selXNN]; rfl, by simp [Instr.rowMask, Instr.rowMatch, opcodeRows]⟩

theorem jp (nnn : BitVec 12) : Statement (.jp nnn) :=
  ⟨by rw [encode, Instr.rowMask, and_opNNN]; rfl, by simp [Instr.rowMask, Instr.rowMatch, opcodeRows]⟩

theorem call (nnn : BitVec 12) : Statement (.call nnn) :=
  ⟨by rw [encode, Instr.rowMask, and_opNNN]; rfl, by simp [Instr.rowMask, Instr.rowMatch, opcodeRows]⟩

theorem seImm (x : Reg) (nn : Byte) : Statement (.seImm x nn) :=
  ⟨by rw [encode, Instr.rowMask, and_opXNN]; rfl, by simp [Instr.rowMask, Instr.rowMatch, opcodeRows]⟩

theorem sneImm (x : Reg) (nn : Byte) : Statement (.sneImm x nn) :=
  ⟨by rw [encode, Instr.rowMask, and_opXNN]; rfl, by simp [Instr.rowMask, Instr.rowMatch, opcodeRows]⟩

theorem seReg (x : Reg) (y : Reg) (n : Nibble) : Statement (.seReg x y n) :=
  ⟨by rw [encode, Instr.rowMask, and_opWord4]; rfl, by simp [Instr.rowMask, Instr.rowMatch, opcodeRows]⟩

theorem ldImm (x : Reg) (nn : Byte) : Statement (.ldImm x nn) :=
  ⟨by rw [encode, Instr.rowMask, and_opXNN]; rfl, by simp [Instr.rowMask, Instr.rowMatch, opcodeRows]⟩

theorem addImm (x : Reg) (nn : Byte) : Statement (.addImm x nn) :=
  ⟨by rw [encode, Instr.rowMask, and_opXNN]; rfl, by simp [Instr.rowMask, Instr.rowMatch, opcodeRows]⟩

theorem ldReg (x : Reg) (y : Reg) : Statement (.ldReg x y) :=
  ⟨by rw [encode, Instr.rowMask, and_selWord4]; rfl, by simp [Instr.rowMask, Instr.rowMatch, opcodeRows]⟩

theorem or (x : Reg) (y : Reg) : Statement (.or x y) :=
  ⟨by rw [encode, Instr.rowMask, and_selWord4]; rfl, by simp [Instr.rowMask, Instr.rowMatch, opcodeRows]⟩

theorem and (x : Reg) (y : Reg) : Statement (.and x y) :=
  ⟨by rw [encode, Instr.rowMask, and_selWord4]; rfl, by simp [Instr.rowMask, Instr.rowMatch, opcodeRows]⟩

theorem xor (x : Reg) (y : Reg) : Statement (.xor x y) :=
  ⟨by rw [encode, Instr.rowMask, and_selWord4]; rfl, by simp [Instr.rowMask, Instr.rowMatch, opcodeRows]⟩

theorem addReg (x : Reg) (y : Reg) : Statement (.addReg x y) :=
  ⟨by rw [encode, Instr.rowMask, and_selWord4]; rfl, by simp [Instr.rowMask, Instr.rowMatch, opcodeRows]⟩

theorem subReg (x : Reg) (y : Reg) : Statement (.subReg x y) :=
  ⟨by rw [encode, Instr.rowMask, and_selWord4]; rfl, by simp [Instr.rowMask, Instr.rowMatch, opcodeRows]⟩

theorem shr (x : Reg) (y : Reg) : Statement (.shr x y) :=
  ⟨by rw [encode, Instr.rowMask, and_selWord4]; rfl, by simp [Instr.rowMask, Instr.rowMatch, opcodeRows]⟩

theorem subnReg (x : Reg) (y : Reg) : Statement (.subnReg x y) :=
  ⟨by rw [encode, Instr.rowMask, and_selWord4]; rfl, by simp [Instr.rowMask, Instr.rowMatch, opcodeRows]⟩

theorem shl (x : Reg) (y : Reg) : Statement (.shl x y) :=
  ⟨by rw [encode, Instr.rowMask, and_selWord4]; rfl, by simp [Instr.rowMask, Instr.rowMatch, opcodeRows]⟩

theorem sneReg (x : Reg) (y : Reg) (n : Nibble) : Statement (.sneReg x y n) :=
  ⟨by rw [encode, Instr.rowMask, and_opWord4]; rfl, by simp [Instr.rowMask, Instr.rowMatch, opcodeRows]⟩

theorem ldI (nnn : BitVec 12) : Statement (.ldI nnn) :=
  ⟨by rw [encode, Instr.rowMask, and_opNNN]; rfl, by simp [Instr.rowMask, Instr.rowMatch, opcodeRows]⟩

theorem rnd (x : Reg) (nn : Byte) : Statement (.rnd x nn) :=
  ⟨by rw [encode, Instr.rowMask, and_opXNN]; rfl, by simp [Instr.rowMask, Instr.rowMatch, opcodeRows]⟩

theorem drw (x : Reg) (y : Reg) (n : Nibble) : Statement (.drw x y n) :=
  ⟨by rw [encode, Instr.rowMask, and_opWord4]; rfl, by simp [Instr.rowMask, Instr.rowMatch, opcodeRows]⟩

theorem skp (x : Reg) : Statement (.skp x) :=
  ⟨by rw [encode, Instr.rowMask, and_selXNN]; rfl, by simp [Instr.rowMask, Instr.rowMatch, opcodeRows]⟩

theorem sknp (x : Reg) : Statement (.sknp x) :=
  ⟨by rw [encode, Instr.rowMask, and_selXNN]; rfl, by simp [Instr.rowMask, Instr.rowMatch, opcodeRows]⟩

theorem ldRegDT (x : Reg) : Statement (.ldRegDT x) :=
  ⟨by rw [encode, Instr.rowMask, and_selXNN]; rfl, by simp [Instr.rowMask, Instr.rowMatch, opcodeRows]⟩

theorem ldDTReg (x : Reg) : Statement (.ldDTReg x) :=
  ⟨by rw [encode, Instr.rowMask, and_selXNN]; rfl, by simp [Instr.rowMask, Instr.rowMatch, opcodeRows]⟩

theorem ldSTReg (x : Reg) : Statement (.ldSTReg x) :=
  ⟨by rw [encode, Instr.rowMask, and_selXNN]; rfl, by simp [Instr.rowMask, Instr.rowMatch, opcodeRows]⟩

theorem addI (x : Reg) : Statement (.addI x) :=
  ⟨by rw [encode, Instr.rowMask, and_selXNN]; rfl, by simp [Instr.rowMask, Instr.rowMatch, opcodeRows]⟩

theorem ldGlyph (x : Reg) : Statement (.ldGlyph x) :=
  ⟨by rw [encode, Instr.rowMask, and_selXNN]; rfl, by simp [Instr.rowMask, Instr.rowMatch, opcodeRows]⟩

theorem ldDigits (x : Reg) : Statement (.ldDigits x) :=
  ⟨by rw [encode, Instr.rowMask, and_selXNN]; rfl, by simp [Instr.rowMask, Instr.rowMatch, opcodeRows]⟩

theorem storeRegs (x : Reg) : Statement (.storeRegs x) :=
  ⟨by rw [encode, Instr.rowMask, and_selXNN]; rfl, by simp [Instr.rowMask, Instr.rowMatch, opcodeRows]⟩

theorem loadRegs (x : Reg) : Statement (.loadRegs x) :=
  ⟨by rw [encode, Instr.rowMask, and_selXNN]; rfl, by simp [Instr.rowMask, Instr.rowMatch, opcodeRows]⟩

theorem waitKey (x : Reg) : Statement (.waitKey x) :=
  ⟨by rw [encode, Instr.rowMask, and_selXNN]; rfl, by simp [Instr.rowMask, Instr.rowMatch, opcodeRows]⟩

end Sys2Proof.Laws.RowMatch
end

