-- ==== Sys2Proof/Laws/Step.lean ====
section
/-! SUPPORT. What a step can do, said once: the five ways through R41. -/

namespace Sys2Proof.Machine

/-- The bytes in memory order decode to an instruction exactly when their word does. -/
theorem decode_two (hi lo : Byte) (i : Instr) :
    decode [hi, lo] = .ok (i, []) ↔ decodeWord (wordOfBytes hi lo) = .ok i := by
  cases h : decodeWord (wordOfBytes hi lo) <;> simp [decode, h]

/-- A step that executes an instruction is `exec` of it on the state whose timers have advanced and
whose pc is 2 further (R41 lines 1, 3 and 4). -/
theorem step_eq_exec {s : State} {i : Instr} (h : s.Runs i) :
    step s = exec i s.hostTurn.advanceTimers.advancePc := by
  obtain ⟨hh, hw, hpc, hd⟩ := h
  have hf : s.hostTurn.advanceTimers.fetch = .ok (wordOfBytes (Memory.byte s.mem s.pc.toNat)
      (Memory.byte s.mem (s.pc.toNat + 1))) := by
    rcases s.hostTurn.advanceTimers.fetch_cases with ⟨_, hf⟩ | ⟨hn, _⟩
    · exact hf
    · exact absurd (Nat.lt_succ_of_le hpc) hn
  rw [decode_two] at hd
  simp [step, State.cycle, State.coreTurn, hh, hw, State.fetchAndRun, hf, State.runWord, hd]

/-- Everything a step can do (R41): a halted machine has only the host's turn, a waiting one looks at
the keys, and any other runs an instruction, emits the diagnostic of an unknown word, or faults at the
fetch. -/
theorem step_cases {s t : State} (h : step s = .next t) :
    (s.halted = true ∧ t = s.hostTurn) ∨
    (s.halted = false ∧ s.awaiting = true ∧ t = s.hostTurn.advanceTimers.resolveKeyWait) ∨
    (∃ i, s.Runs i ∧ exec i s.hostTurn.advanceTimers.advancePc = .next t) ∨
    (s.halted = false ∧ s.awaiting = false ∧ s.pc.toNat + 1 ≤ 4095 ∧
      t = s.hostTurn.advanceTimers.advancePc.diagnose
        (wordOfBytes (Memory.byte s.mem s.pc.toNat) (Memory.byte s.mem (s.pc.toNat + 1)))) ∨
    (s.halted = false ∧ s.awaiting = false ∧ ¬ s.pc.toNat + 1 ≤ 4095 ∧
      t = s.hostTurn.advanceTimers.raise (.memOutOfBounds (max s.pc.toNat 4096)) s.pc) := by
  cases hh : s.halted with
  | true =>
    simp only [step, State.cycle, State.coreTurn, State.hostTurn_halted, hh, if_true,
      Host.Outcome.next.injEq] at h
    exact .inl ⟨rfl, h.symm⟩
  | false =>
    refine .inr ?_
    cases hw : s.awaiting with
    | true =>
      simp [step, State.cycle, State.coreTurn, hh, hw] at h
      exact .inl ⟨rfl, rfl, h.symm⟩
    | false =>
      refine .inr ?_
      simp only [step, State.cycle, State.coreTurn, State.hostTurn_halted, hh,
        State.hostTurn_awaiting, hw, Bool.false_eq_true, if_false, State.fetchAndRun] at h
      rcases s.hostTurn.advanceTimers.fetch_cases with ⟨hlt, hf⟩ | ⟨hn, hf⟩
      · rw [hf] at h
        simp only [State.runWord] at h
        split at h
        · next i hd =>
          exact .inl ⟨i, ⟨hh, hw, Nat.le_of_lt_succ hlt, (decode_two _ _ i).mpr hd⟩, h⟩
        · cases h
          exact .inr (.inl ⟨rfl, rfl, Nat.le_of_lt_succ hlt, rfl⟩)
      · rw [hf] at h
        cases h
        exact .inr (.inr ⟨rfl, rfl, fun hle => hn (Nat.lt_succ_of_le hle), rfl⟩)

end Sys2Proof.Machine
end

