-- ==== Sys2Proof/Laws/Time.lean ====
section
/-! SUPPORT. The exact time of the model is rational arithmetic in lowest terms. -/

namespace Sys2Proof

theorem Seconds.den_pos (t : Seconds) : 0 < t.den := Nat.succ_pos _

theorem Seconds.den_ne_zero (t : Seconds) : (t.den : ℚ) ≠ 0 :=
  Nat.cast_ne_zero.mpr (Nat.pos_iff_ne_zero.mp t.den_pos)

/-- `ofFrac n d` is the fraction `n / d`. -/
theorem Seconds.toRat_ofFrac (n : Nat) {d : Nat} (hd : 0 < d) :
    (Seconds.ofFrac n d).toRat = (n : ℚ) / (d : ℚ) := by
  have hg : 0 < Nat.gcd n d := Nat.gcd_pos_of_pos_right n hd
  have hgq : ((Nat.gcd n d : Nat) : ℚ) ≠ 0 := Nat.cast_ne_zero.mpr (Nat.pos_iff_ne_zero.mp hg)
  have h1 : 1 ≤ d / Nat.gcd n d := Nat.div_pos (Nat.gcd_le_right n hd) hg
  have hden : (Seconds.ofFrac n d).den = d / Nat.gcd n d := by
    show d / Nat.gcd n d - 1 + 1 = _
    omega
  have hnum : (Seconds.ofFrac n d).num = n / Nat.gcd n d := rfl
  rw [Seconds.toRat, hden, hnum, Nat.cast_div (Nat.gcd_dvd_left n d) hgq,
    Nat.cast_div (Nat.gcd_dvd_right n d) hgq, div_div_div_cancel_right₀ hgq]

theorem Seconds.toRat_add (s t : Seconds) : (s.add t).toRat = s.toRat + t.toRat := by
  rw [Seconds.add, Seconds.toRat_ofFrac _ (Nat.mul_pos s.den_pos t.den_pos), Seconds.toRat,
    Seconds.toRat, div_add_div _ _ s.den_ne_zero t.den_ne_zero]
  push_cast
  ring_nf

/-- The ticks in an amount of time are `floor(t * 60)` (R32). -/
theorem Seconds.ticks_eq_floor (t : Seconds) : t.ticks = ⌊t.toRat * 60⌋₊ := by
  have h : t.toRat * 60 = ((t.num * timerHz : Nat) : ℚ) / ((t.den : Nat) : ℚ) := by
    rw [Seconds.toRat, timerHz]
    push_cast
    ring
  rw [h, Nat.floor_div_eq_div]
  rfl

/-- What is left of an amount of time is `t - floor(t * 60) / 60` (R32). -/
theorem Seconds.toRat_leftover (t : Seconds) : t.leftover.toRat = t.toRat - (t.ticks : ℚ) / 60 := by
  have hpos : 0 < timerHz * t.den := Nat.mul_pos (by decide) t.den_pos
  have hmod : ((t.num * timerHz % t.den : Nat) : ℚ) =
      (t.num : ℚ) * 60 - (t.den : ℚ) * (t.ticks : ℚ) := by
    have h := Nat.div_add_mod (t.num * timerHz) t.den
    have hq : (t.den : ℚ) * (t.ticks : ℚ) + ((t.num * timerHz % t.den : Nat) : ℚ) =
        (t.num : ℚ) * 60 := by
      have h' := congrArg (Nat.cast : Nat → ℚ) h
      push_cast [timerHz] at h'
      simpa [Seconds.ticks, timerHz] using h'
    linarith
  rw [Seconds.leftover, Seconds.toRat_ofFrac _ hpos, hmod, Seconds.toRat]
  have hd := t.den_ne_zero
  push_cast [timerHz]
  field_simp

/-- What is left is less than one tick (R30). -/
theorem Seconds.belowTick_leftover (t : Seconds) : t.leftover.belowTick := by
  have hg : 0 < Nat.gcd (t.num * timerHz % t.den) (timerHz * t.den) :=
    Nat.gcd_pos_of_pos_right _ (Nat.mul_pos (by decide) t.den_pos)
  set n := t.num * timerHz % t.den with hn
  have hlt : n < t.den := Nat.mod_lt _ t.den_pos
  have hdvn := Nat.gcd_dvd_left n (timerHz * t.den)
  have hdvd := Nat.gcd_dvd_right n (timerHz * t.den)
  have hq1 : n / Nat.gcd n (timerHz * t.den) * Nat.gcd n (timerHz * t.den) = n :=
    Nat.div_mul_cancel hdvn
  have hq2 : timerHz * t.den / Nat.gcd n (timerHz * t.den) * Nat.gcd n (timerHz * t.den) =
      timerHz * t.den := Nat.div_mul_cancel hdvd
  show n / Nat.gcd n (timerHz * t.den) * timerHz <
    timerHz * t.den / Nat.gcd n (timerHz * t.den) - 1 + 1
  have key : n / Nat.gcd n (timerHz * t.den) * timerHz <
      timerHz * t.den / Nat.gcd n (timerHz * t.den) := by
    refine Nat.lt_of_mul_lt_mul_right (a := Nat.gcd n (timerHz * t.den)) ?_
    rw [hq2, Nat.mul_right_comm, hq1, Nat.mul_comm]
    exact Nat.mul_lt_mul_of_pos_left hlt (by decide)
  omega

end Sys2Proof
end

