-- ==== Sys2Proof/Tests/Slice0.lean ====
section
/-! SUPPORT. Tests. The expected results are the vectors of spec/95_test_vectors.md (their names are
in the comments) or are worked by hand from the rule named; then a witness for the hypotheses of each
statement of Certificates/Slice0/Obligations.lean. -/

namespace Sys2Proof.Tests

open Sys2Proof Sys2Proof.Machine

/-! ### Helpers -/

/-- The inputs of a step in which no time passes. -/
def input (keys : BitVec 16) (rnd : Byte) : StepInput :=
  { elapsed := ⟨0, 0⟩, keys := keys, rnd := rnd, presents := false }

/-- The state after reset with registers set. -/
def regs (l : List (Reg × Byte)) : State :=
  l.foldl (fun s p => s.writeReg p.1 p.2) State.reset

/-- The same with the index register set. -/
def regsI (i : Addr) (l : List (Reg × Byte)) : State := (regs l).setI i

/-- The state after reset with bytes in memory. -/
def withBytes (s : State) (a : Nat) (bs : List Byte) : State :=
  s.setMem (Memory.setBytes s.mem a bs)

/-- The state of a next state; where there is none, the state after reset. -/
def after : Host.Outcome State Fault Refusal → State
  | .next t => t
  | .fault _ => State.reset
  | .refused _ => State.reset

/-- The state after one step that runs the given word with the given inputs. -/
def runWith (x : StepInput) (w : Nat) (s : State) : State :=
  after (step (State.withFetchWord { s with port := { s.port with pending := [x] } } 16 w))

/-- The same with no key down and the random byte 0. -/
def run (w : Nat) (s : State) : State := runWith (input 0 0) w s

/-- The pixels that are 1 in some rows, as pairs of row and column. -/
def lit (s : State) (rows : List (Fin 32)) : List (Nat × Nat) :=
  rows.flatMap fun r =>
    ((List.finRange 64).filter fun c => Frame.pixel s.fb r c).map fun c => (r.val, c.val)

/-! ### Well-formedness refuses the spelling that a pattern does not show (R76) -/

theorem test_wf_refuses_cls : Instr.wellFormed (.cls 1) = false := by decide
theorem test_wf_refuses_ret : Instr.wellFormed (.ret 7) = false := by decide
theorem test_wf_refuses_seReg : Instr.wellFormed (.seReg 1 2 7) = false := by decide
theorem test_wf_refuses_sneReg : Instr.wellFormed (.sneReg 1 2 15) = false := by decide
theorem test_wf_accepts :
    ([.cls 0, .ret 0, .seReg 1 2 0, .sneReg 1 2 0, .shr 4 9, .jp 0xFFF].all Instr.wellFormed) = true := by
  decide

/-! ### Decoding: words written bit by bit from the patterns of R74 -/

theorem test_decode_control :
    [0b0000_0000_1110_1110, 0b0001_0010_0000_0100, 0b0010_1010_1011_1100, 0b0011_0011_0100_0010,
      0b0100_0011_0100_0011, 0b0101_0001_0010_0000, 0b1001_0001_0010_0000].map decodeWord =
    [.ok (.ret 0), .ok (.jp 0x204), .ok (.call 0xABC), .ok (.seImm 3 0x42), .ok (.sneImm 3 0x43),
      .ok (.seReg 1 2 0), .ok (.sneReg 1 2 0)] := by decide

theorem test_decode_alu_immediate :
    [0b0110_1010_0010_1111, 0b0111_1111_0000_0001, 0b1100_0001_1111_0000].map decodeWord =
    [.ok (.ldImm 10 0x2F), .ok (.addImm 15 0x01), .ok (.rnd 1 0xF0)] := by decide

theorem test_decode_alu_register :
    [0b1000_1010_1011_0000, 0b1000_0001_0010_0001, 0b1000_0001_0010_0010, 0b1000_0001_0010_0011,
      0b1000_0001_1111_0100, 0b1000_0001_0010_0101, 0b1000_0100_1001_0110, 0b1000_0001_0010_0111,
      0b1000_0100_0000_1110].map decodeWord =
    [.ok (.ldReg 10 11), .ok (.or 1 2), .ok (.and 1 2), .ok (.xor 1 2), .ok (.addReg 1 15),
      .ok (.subReg 1 2), .ok (.shr 4 9), .ok (.subnReg 1 2), .ok (.shl 4 0)] := by decide

theorem test_decode_index_memory :
    [0b1010_1111_1111_1111, 0b1111_0000_0001_1110, 0b1111_0000_0010_1001, 0b1111_0000_0011_0011,
      0b1111_1111_0101_0101, 0b1111_0001_0110_0101].map decodeWord =
    [.ok (.ldI 0xFFF), .ok (.addI 0), .ok (.ldGlyph 0), .ok (.ldDigits 0), .ok (.storeRegs 15),
      .ok (.loadRegs 1)] := by decide

theorem test_decode_display :
    [0b0000_0000_1110_0000, 0b1101_0000_0001_0011].map decodeWord =
    [.ok (.cls 0), .ok (.drw 0 1 3)] := by decide

theorem test_decode_keypad_timers :
    [0b1110_0011_1001_1110, 0b1110_0011_1010_0001, 0b1111_0101_0000_1010, 0b1111_0010_0000_0111,
      0b1111_0000_0001_0101, 0b1111_0101_0001_1000].map decodeWord =
    [.ok (.skp 3), .ok (.sknp 3), .ok (.waitKey 5), .ok (.ldRegDT 2), .ok (.ldDTReg 0),
      .ok (.ldSTReg 5)] := by decide

/-- VCF8, VCF15: the ignored nibbles are kept and do not choose the row. -/
theorem test_decode_ignored_nibble :
    [0x07EE, 0x5127].map decodeWord = [.ok (.ret 7), .ok (.seReg 1 2 7)] := by decide

/-- VCF21, VCF22, VAL35, VKT7, VKT15, S10: words that are no instruction. -/
theorem test_decode_unknown :
    ([0xB123, 0x0000, 0x8128, 0xE39F, 0xF000, 0xFFFF].all fun w =>
      decodeWord w == .error (.unknownInstruction w)) = true := by decide

/-- S12: the byte at the lower address is the high one. -/
theorem test_decode_bytes :
    decode [0x12, 0x0C, 0x77] = .ok (.jp 0x20C, [0x77]) := by decide
theorem test_decode_one_byte : decode [0x12] = .error .tooFewBytes := by decide
theorem test_decodeTableWord : decodeTableWord 16 0xF155 = some (.storeRegs 1) := by decide

/-- R74: each row's match word is read as an instruction of that very row. -/
theorem test_rows_of_the_table :
    (opcodeRows.all fun p =>
      match decodeWord p.2 with
      | .ok i => i.rowMask == p.1 && i.rowMatch == p.2
      | .error _ => false) = true := by decide

/-! ### Control transfer (section 2.1 of the vectors) -/

/-- VCF1 -/
theorem test_jp : (run 0x1204 State.reset).pc = 0x0204 := by decide
/-- VCF2: an odd target is legal. -/
theorem test_jp_odd : (run 0x1201 State.reset).pc = 0x0201 := by decide
/-- VCF4 -/
theorem test_call : (run 0x2ABC State.reset).stack = [0x0202] ∧ (run 0x2ABC State.reset).pc = 0x0ABC := by
  decide
/-- VCF5 -/
theorem test_call_full :
    (run 0x2ABC (State.reset.setStack (List.replicate 16 0x0300))).fault =
      some { cause := .stackOverflow 0x0202, faultAddr := 0x0200 } := by decide
/-- VCF6: the spec writes the top entry last, the model first. -/
theorem test_ret :
    (run 0x00EE (State.reset.setStack [0x0300, 0x0206])).pc = 0x0300 ∧
      (run 0x00EE (State.reset.setStack [0x0300, 0x0206])).stack = [0x0206] := by decide
/-- VCF7 -/
theorem test_ret_empty :
    (run 0x00EE State.reset).fault = some { cause := .stackUnderflow, faultAddr := 0x0200 } ∧
      (run 0x00EE State.reset).pc = 0x0202 := by decide
/-- VCF9, VCF10 -/
theorem test_seImm :
    (run 0x3342 (regs [(3, 0x42)])).pc = 0x0204 ∧ (run 0x3343 (regs [(3, 0x42)])).pc = 0x0202 := by
  decide
/-- VCF11, VCF12 -/
theorem test_sneImm :
    (run 0x4342 (regs [(3, 0x42)])).pc = 0x0202 ∧ (run 0x4343 (regs [(3, 0x42)])).pc = 0x0204 := by
  decide
/-- VCF14, VCF15 -/
theorem test_seReg :
    (run 0x5120 (regs [(1, 9), (2, 8)])).pc = 0x0202 ∧
      (run 0x5127 (regs [(1, 9), (2, 9)])).pc = 0x0204 := by decide
/-- VCF17, VCF18 -/
theorem test_sneReg :
    (run 0x9120 (regs [(1, 9), (2, 8)])).pc = 0x0204 ∧
      (run 0x9120 (regs [(1, 9), (2, 9)])).pc = 0x0202 := by decide
/-- VCF20: a skip at the top of memory leaves pc above 4095. -/
theorem test_skip_at_top : (run 0x3000 (State.reset.jump 0x0FFE)).pc = 0x1002 := by decide
/-- VCF3, second step: the fetch at 0x0FFF faults at its second byte. -/
theorem test_fetch_fault :
    (after (step (State.reset.jump 0x0FFF))).fault =
      some { cause := .memOutOfBounds 0x1000, faultAddr := 0x0FFF } ∧
    (after (step (State.reset.jump 0x0FFF))).pc = 0x0FFF := by decide
/-- S10: the diagnostic carries the word and its address. -/
theorem test_unknown :
    (run 0xFFFF State.reset).port.event = some (.unknownInstruction 0xFFFF 0x0200) ∧
      (run 0xFFFF State.reset).pc = 0x0202 ∧ (run 0xFFFF State.reset).halted = false := by decide

/-! ### Load and ALU (section 2.2) -/

/-- VAL1 -/
theorem test_ldImm : (run 0x6FFF (regs [(15, 0x55)])).readReg 15 = 0xFF := by decide
/-- VAL2 -/
theorem test_addImm :
    (run 0x7001 (regs [(0, 0xFF), (15, 0x55)])).readReg 0 = 0x00 ∧
      (run 0x7001 (regs [(0, 0xFF), (15, 0x55)])).readReg 15 = 0x55 := by decide
/-- VAL5 -/
theorem test_ldReg : (run 0x8AB0 (regs [(11, 0x77)])).readReg 10 = 0x77 := by decide
/-- VAL6 -/
theorem test_or :
    (run 0x8121 (regs [(1, 0xAA), (2, 0x0F), (15, 0x55)])).readReg 1 = 0xAF ∧
      (run 0x8121 (regs [(1, 0xAA), (2, 0x0F), (15, 0x55)])).readReg 15 = 0x55 := by decide
/-- VAL7 -/
theorem test_and : (run 0x8122 (regs [(1, 0xAA), (2, 0x0F)])).readReg 1 = 0x0A := by decide
/-- VAL8 -/
theorem test_xor : (run 0x8123 (regs [(1, 0xAA), (2, 0x0F)])).readReg 1 = 0xA5 := by decide
/-- VAL14: VF is read before it is written. -/
theorem test_addReg :
    (run 0x81F4 (regs [(1, 0x10), (15, 0x05)])).readReg 1 = 0x15 ∧
      (run 0x81F4 (regs [(1, 0x10), (15, 0x05)])).readReg 15 = 0 := by decide
/-- VAL16: the result overwrites the carry. -/
theorem test_addReg_vf : (run 0x8FF4 (regs [(15, 0x81)])).readReg 15 = 0x02 := by decide
/-- VAL18 -/
theorem test_subReg :
    (run 0x8125 (regs [(1, 0x0A), (2, 0x14), (15, 0x55)])).readReg 1 = 0xF6 ∧
      (run 0x8125 (regs [(1, 0x0A), (2, 0x14), (15, 0x55)])).readReg 15 = 0 := by decide
/-- VAL19: equal operands give flag 0. -/
theorem test_subReg_equal :
    (run 0x8125 (regs [(1, 0x33), (2, 0x33), (15, 0x55)])).readReg 15 = 0 := by decide
/-- VAL26 -/
theorem test_shr :
    (run 0x8496 (regs [(4, 0x05), (9, 0xFF)])).readReg 4 = 0x02 ∧
      (run 0x8496 (regs [(4, 0x05), (9, 0xFF)])).readReg 15 = 1 := by decide
/-- VAL27 -/
theorem test_shr_vf : (run 0x8F06 (regs [(15, 0x03)])).readReg 15 = 0x01 := by decide
/-- VAL28 -/
theorem test_subnReg :
    (run 0x8127 (regs [(1, 0x0A), (2, 0x14)])).readReg 1 = 0x0A ∧
      (run 0x8127 (regs [(1, 0x0A), (2, 0x14)])).readReg 15 = 1 := by decide
/-- VAL30 -/
theorem test_subnReg_equal :
    (run 0x8127 (regs [(1, 0x33), (2, 0x33), (15, 0x55)])).readReg 15 = 0 := by decide
/-- VAL33 -/
theorem test_shl :
    (run 0x840E (regs [(4, 0x80)])).readReg 4 = 0x00 ∧
      (run 0x840E (regs [(4, 0x80)])).readReg 15 = 1 := by decide
/-- VAL34 -/
theorem test_shl_vf : (run 0x8F0E (regs [(15, 0xC0)])).readReg 15 = 0x80 := by decide
/-- VAL39 -/
theorem test_rnd : (runWith (input 0 0xA7) 0xC30F State.reset).readReg 3 = 0x07 := by decide

/-! ### Index register and memory (section 2.3) -/

/-- VMM1 -/
theorem test_ldI : (run 0xAFFF State.reset).I = 0x0FFF := by decide
/-- VMM3 -/
theorem test_addI : (run 0xF01E (regsI 0xFFFF [(0, 0x02)])).I = 0x0001 := by decide
/-- VMM6: the whole byte is used. -/
theorem test_ldGlyph :
    (run 0xF029 (regs [(0, 0x10)])).I.toNat = Config.fontBase.val + 80 := by
  show (glyphAddr 0x10).toNat = _
  rw [toNat_glyphAddr]
  rfl
/-- S5 -/
theorem test_ldDigits :
    [0x300, 0x301, 0x302].map (Memory.byte (run 0xF033 (regsI 0x0300 [(0, 0x9D)])).mem) = [1, 5, 7] := by
  decide
/-- VMM13: the writes before the fault stand. -/
theorem test_ldDigits_fault :
    [0xFFE, 0xFFF].map (Memory.byte (run 0xF033 (regsI 0x0FFE [(0, 0x7B)])).mem) = [1, 2] ∧
      (run 0xF033 (regsI 0x0FFE [(0, 0x7B)])).fault =
        some { cause := .memOutOfBounds 0x1000, faultAddr := 0x0200 } := by decide
/-- VMM17 -/
theorem test_storeRegs :
    Memory.byte (run 0xF055 (regsI 0x0FFF [(0, 0xEE)])).mem 0xFFF = 0xEE ∧
      (run 0xF055 (regsI 0x0FFF [(0, 0xEE)])).halted = false := by decide
/-- VMM21: the address is not wrapped. -/
theorem test_storeRegs_fault :
    (run 0xF055 (regsI 0xFFFF [(0, 1)])).fault =
      some { cause := .memOutOfBounds 0xFFFF, faultAddr := 0x0200 } := by decide
/-- VMM18 -/
theorem test_loadRegs :
    [0, 1, 2].map (run 0xF165 (withBytes (regsI 0x0400 [(2, 0x77)]) 0x400 [0xAB, 0xCD, 0xEF])).readReg =
      [0xAB, 0xCD, 0x77] := by decide
/-- VMM19: code is read as data. -/
theorem test_loadRegs_code :
    [0, 1].map (run 0xF165 (regsI 0x0200 [])).readReg = [0xF1, 0x65] := by decide

/-! ### Display (section 2.4) -/

/-- VDS1, with one of its two pixels -/
theorem test_cls :
    lit (run 0x00E0 { State.reset with fb := Frame.flip Frame.blank 5 5 }) [5, 31] = [] ∧
      (run 0x00E0 State.reset).dirty = true := by decide +kernel
/-- VDS6: rows 32 and 33 are not drawn. -/
theorem test_drw_clips_rows :
    lit (run 0xD013 (withBytes (regsI 0x0300 [(1, 31)]) 0x300 [0xFF, 0xFF, 0xFF])) (List.finRange 32) =
      [(31, 0), (31, 1), (31, 2), (31, 3), (31, 4), (31, 5), (31, 6), (31, 7)] := by decide +kernel
/-- VDS14: the old VF is the x coordinate. -/
theorem test_drw_vf :
    lit (run 0xDF11 (withBytes (regsI 0x0300 [(15, 5)]) 0x300 [0x80])) [0, 1] = [(0, 5)] ∧
      (run 0xDF11 (withBytes (regsI 0x0300 [(15, 5)]) 0x300 [0x80])).readReg 15 = 0 := by
  decide +kernel

/-! ### Keypad and timers (section 2.5) -/

/-- VKT1, VKT5 -/
theorem test_skp :
    (runWith (input 0x0080 0) 0xE39E (regs [(3, 7)])).pc = 0x0204 ∧
      (runWith (input 0xFFFF 0) 0xE39E (regs [(3, 0x17)])).pc = 0x0202 := by decide
/-- VKT3, VKT6 -/
theorem test_sknp :
    (runWith (input 0x0080 0) 0xE3A1 (regs [(3, 7)])).pc = 0x0202 ∧
      (runWith (input 0xFFFF 0) 0xE3A1 (regs [(3, 0x17)])).pc = 0x0204 := by decide
/-- VKT8: the lowest key. -/
theorem test_waitKey :
    (runWith (input 0x0104 0) 0xF50A State.reset).readReg 5 = 0x02 ∧
      (runWith (input 0x0104 0) 0xF50A State.reset).awaiting = false := by decide
/-- VKT9 -/
theorem test_waitKey_none :
    (run 0xF50A State.reset).awaiting = true ∧ (run 0xF50A State.reset).waitReg = 5 := by decide
/-- VKT11 -/
theorem test_key_wait_ends :
    (after (step { State.reset.beginWait 5 with
      port := { HostPort.reset with pending := [input 0x8000 0] } })).readReg 5 = 0x0F := by decide
/-- VKT12: the timer advances before the instruction reads it. -/
theorem test_ldRegDT :
    (runWith { input 0 0 with elapsed := ⟨1, 59⟩ } 0xF207 (State.reset.setDT 0x3C)).readReg 2 = 0x3B := by
  decide
/-- VKT13 -/
theorem test_ldDTReg :
    (runWith { input 0 0 with elapsed := ⟨1, 59⟩ } 0xF015 (regs [(0, 0x3C)])).DT = 0x3C := by decide
/-- VKT14 -/
theorem test_ldSTReg : (run 0xF518 (regs [(5, 0x02)])).ST = 0x02 := by decide
/-- VTM4: 3, 1/100 and 1/100 give 2 and 1/300. -/
theorem test_timerAdvance : timerAdvance 3 ⟨1, 99⟩ ⟨1, 99⟩ = (2, ⟨1, 299⟩) := by decide
/-- VTM8: ticks are consumed at count 0. -/
theorem test_timerAdvance_zero : timerAdvance 0 ⟨1, 99⟩ ⟨1, 99⟩ = (0, ⟨1, 299⟩) := by decide
/-- R45: `Present()` outputs a dirty framebuffer and clears the flag. -/
theorem test_present :
    (State.presentIf (State.reset.setDisplay Frame.blank) true).dirty = false ∧
      (State.presentIf (State.reset.setDisplay Frame.blank) true).port.frame.isSome = true ∧
      (State.presentIf State.reset true).port.frame = none := by decide

/-! ### Witnesses: states and operands that meet the hypotheses of each statement together -/

/-- A state whose call stack holds some entries. -/
def stacked (n : Nat) : State := State.reset.setStack (List.replicate n 0x0300)

/-- A state that samples some inputs. -/
def sampling (keys : BitVec 16) (rnd : Byte) : State := State.reset.withSample (input keys rnd)

/-- A state that fetches the given bytes next. -/
def fetching (pc : Addr) (bs : List Byte) : State :=
  withBytes (State.reset.jump pc) pc.toNat bs

theorem witness_BootWritesGlyphsAndImageOnly :
    (List.replicate 3584 (0x12 : Byte)).length ≤ 3584 ∧
      3584 < (List.replicate 3585 (0x12 : Byte)).length ∧ 0 < [(0x12 : Byte)].length ∧
      [431, 513, 4095].all (fun a => decide (a < 4096 ∧ ¬(432 ≤ a ∧ a < 432 + 80) ∧
        ¬(0x200 ≤ a ∧ a < 0x200 + [(0x12 : Byte)].length))) = true := by
  simp only [List.length_replicate]
  decide

theorem witness_DecodedWordIsItsEncoding : decodeWord 0x5127 = .ok (.seReg 1 2 7) := by decide

theorem witness_DispatchAgreesWithTheTable :
    decodeWord 0x07EE = .ok (.ret 7) ∧ ((0xF0FF, 0x00EE) : Word × Word) ∈ opcodeRows ∧
      (0x07EE : Word) &&& 0xF0FF = 0x00EE := by decide

theorem witness_UnknownWordsAreThoseOfR79 :
    ([0x0000, 0x00EF, 0x8008, 0x800F, 0xB000, 0xBFFF, 0xE09D, 0xF066].all fun w =>
      decodeWord w == .error (.unknownInstruction w)) = true ∧
    ([0x00EE, 0x8007, 0x800E, 0xAFFF, 0xC000, 0xE09E, 0xF065].all fun w =>
      decodeWord w != .error (.unknownInstruction w)) = true := by decide

theorem witness_MemReadAndMemWriteAreBoundsChecked :
    Memory.wf State.reset.mem = true ∧ 4096 > 4095 ∧ 4095 ≤ 4095 ∧ (4094 : Nat) ≠ 4095 := by decide

theorem witness_FetchSeesTheLatestStore :
    (∃ t, (State.reset.jump 4094).memWrite 4094 0x12 = .ok t) ∧
      (∃ t, (State.reset.jump 4094).memWrite 4095 0x12 = .ok t) ∧
      (∃ t, (State.reset.jump 4094).memWrite 0 0x12 = .ok t) ∧
      Memory.wf (State.reset.jump 4094).mem = true ∧
      (State.reset.jump 4094).pc.toNat + 1 ≤ 4095 :=
  ⟨⟨_, rfl⟩, ⟨_, rfl⟩, ⟨_, rfl⟩, by decide, by decide⟩

theorem witness_CanonicalMemoriesReadingAlikeAreEqual :
    Memory.wf [(0, 0x01), (4095, 0xFF)] = true ∧
      ∀ a, Memory.byte [(0, 0x01), (4095, 0xFF)] a = Memory.byte [(0, 0x01), (4095, 0xFF)] a :=
  ⟨by decide, fun _ => rfl⟩

theorem witness_JumpSetsPcToNNN : (0x1FFF : Word) &&& 0xF000 = 0x1000 := by decide

theorem witness_CallPushesPcAndJumps : (stacked 15).stack.length < 16 := by decide

theorem witness_CallOnFullStackHalts : 16 ≤ (stacked 16).stack.length := by decide

theorem witness_ReturnPopsThePc : (stacked 1).stack = 0x0300 :: [] := rfl

theorem witness_ReturnOnEmptyStackHalts : (stacked 0).stack = [] := rfl

theorem witness_ReturnUndoesTheCall :
    ∃ t, (stacked 15).stack.length < 16 ∧ exec (.call 0xABC) (stacked 15) = .next t ∧
      (t.jump 0x0300).stack = t.stack :=
  ⟨_, by decide, rfl, rfl⟩

theorem witness_SkipsOnAnImmediate :
    (0x3342 : Word) &&& 0xF000 = 0x3000 ∧ (0x4342 : Word) &&& 0xF000 = 0x4000 ∧
      (regs [(3, 0x42)]).readReg 3 = 0x42 ∧ (regs [(3, 0x43)]).readReg 3 ≠ 0x42 := by decide

theorem witness_SkipsOnTwoRegisters :
    (regs [(1, 9), (2, 9)]).readReg 1 = (regs [(1, 9), (2, 9)]).readReg 2 ∧
      (regs [(1, 9), (2, 8)]).readReg 1 ≠ (regs [(1, 9), (2, 8)]).readReg 2 := by decide

theorem witness_LoadsOfARegister :
    (0x6FFF : Word) &&& 0xF000 = 0x6000 ∧ (0x8AB0 : Word) &&& 0xF00F = 0x8000 := by decide

theorem witness_AddImmediateWrapsWithoutFlag :
    (0x7F01 : Word) &&& 0xF000 = 0x7000 ∧ (0 : Reg) ≠ 15 := by decide

theorem witness_LogicIsBitwiseWithoutFlag :
    (0x8121 : Word) &&& 0xF00F = 0x8001 ∧ (0x8122 : Word) &&& 0xF00F = 0x8002 ∧
      (0x8123 : Word) &&& 0xF00F = 0x8003 ∧ (15 : Reg) ≠ 1 := by decide

/-- The side conditions `x ≠ 15`, `r ≠ x` and `r ≠ 15` of the flag statements. -/
theorem witness_AddReportsTheCarry : (1 : Reg) ≠ 15 ∧ (2 : Reg) ≠ 1 ∧ (2 : Reg) ≠ 15 := by decide

theorem witness_SubtractionsReportStrictlyGreater :
    (14 : Reg) ≠ 15 ∧ (0 : Reg) ≠ 14 ∧ (0 : Reg) ≠ 15 := by decide

theorem witness_ShiftsReportTheBitShiftedOut :
    (0 : Reg) ≠ 15 ∧ (14 : Reg) ≠ 0 ∧ (14 : Reg) ≠ 15 := by decide

theorem witness_IndexLoads :
    (0xAFFF : Word) &&& 0xF000 = 0xA000 ∧ (0xF029 : Word) &&& 0xF0FF = 0xF029 := by decide

theorem witness_DigitsAreStoredInRange :
    Memory.wf (regsI 0x0FFD []).mem = true ∧ (regsI 0x0FFD []).I.toNat + 2 ≤ 4095 := by decide

theorem witness_DigitsOutOfRangeHalt :
    Memory.wf (regsI 0x0FFE []).mem = true ∧ (regsI 0x0FFE []).I.toNat + 2 > 4095 ∧
      (regsI 0x0FFE []).indexed 0 ≤ 4095 ∧ (regsI 0x0FFE []).indexed 1 ≤ 4095 ∧
      ¬((regsI 0x0FFE []).indexed 0 ≤ 4093 ∧ 4093 ≤ (regsI 0x0FFE []).indexed 1 ∧ 4093 ≤ 4095) ∧
      (regsI 0xFFFF []).I.toNat + 2 > 4095 := by decide

theorem witness_BlockStoreInRange :
    Memory.wf (regsI 0x0FF0 []).mem = true ∧
      (regsI 0x0FF0 []).I.toNat + (15 : Reg).val ≤ 4095 ∧ (15 : Reg) ≤ 15 ∧
      ¬((regsI 0x0FF0 []).indexed 0 ≤ 4079 ∧ 4079 ≤ (regsI 0x0FF0 []).indexed 15) := by decide

theorem witness_BlockStoreOutOfRangeHalts :
    Memory.wf (regsI 0x0FF1 []).mem = true ∧
      (regsI 0x0FF1 []).I.toNat + (15 : Reg).val > 4095 ∧ (14 : Reg) ≤ 15 ∧
      (regsI 0x0FF1 []).indexed (14 : Reg).val ≤ 4095 ∧
      ¬((regsI 0x0FF1 []).indexed 0 ≤ 4080 ∧ 4080 ≤ (regsI 0x0FF1 []).indexed 15 ∧ 4080 ≤ 4095) := by
  decide

theorem witness_BlockLoadInRange : (regsI 0x0FF0 []).I.toNat + (15 : Reg).val ≤ 4095 := by decide

theorem witness_BlockLoadOutOfRangeHalts :
    (regsI 0x0FF1 []).I.toNat + (15 : Reg).val > 4095 ∧
      (regsI 0xFFFF []).I.toNat + (0 : Reg).val > 4095 := by decide

/-- A drawn bit over a pixel that is 0 and over one that is 1, a sprite without a drawn bit there, no
row at all, and the last byte of memory. -/
theorem witness_DrawXorsTheClippedSprite :
    SpriteBitOn (withBytes (regsI 0x0FFF []) 0xFFF [0x80]) 0 1 1 0 0 ∧
      (regsI 0x0FFF []).I.toNat + (1 : Nibble).toNat ≤ 4096 ∧
      ¬SpriteBitOn (withBytes (regsI 0x0FFF []) 0xFFF [0x80]) 0 1 1 0 1 ∧
      Frame.pixel (Frame.flip Frame.blank 0 0) 0 0 = true := by
  unfold SpriteBitOn
  decide +kernel

theorem witness_DrawOutOfRangeHalts :
    (2 : Nibble) ≠ 0 ∧ (regsI 0x0FFF []).I.toNat + (2 : Nibble).toNat > 4096 := by decide

theorem witness_DrawingTwiceRestoresTheDisplay :
    ∃ t, (regsI 0x0300 []).I.toNat + (3 : Nibble).toNat ≤ 4096 ∧
      exec (.drw 0 1 3) (regsI 0x0300 []) = .next t ∧
      t.readReg 0 = (regsI 0x0300 []).readReg 0 ∧ t.readReg 1 = (regsI 0x0300 []).readReg 1 :=
  ⟨_, by decide, rfl, rfl, rfl⟩

theorem witness_KeySkips :
    ((regs [(3, 15)]).readReg 3).toNat ≤ 15 ∧ (sampling 0x8000 0).port.sample.keys.getLsbD 15 = true ∧
      (sampling 0x7FFF 0).port.sample.keys.getLsbD 15 = false ∧
      ¬((regs [(3, 16)]).readReg 3).toNat ≤ 15 := by decide

theorem witness_WaitKeyTakesAKeyOrWaits :
    LeastKeyDown (sampling 0x0104 0).port.sample.keys 2 ∧
      LeastKeyDown (sampling 0x8000 0).port.sample.keys 15 ∧
      (sampling 0 0).port.sample.keys = 0 ∧ (sampling 0x0104 0).port.sample.keys ≠ 0 := by
  unfold LeastKeyDown
  decide

theorem witness_CountsOnlyGoDown :
    exec (.ldDTReg 0) (regs [(0, 60)]) = .next ((regs [(0, 60)]).setDT 60) ∧
      ((regs [(0, 60)]).setDT 60).DT ≠ (regs [(0, 60)]).DT ∧
      exec (.ldSTReg 0) (regs [(0, 60)]) = .next ((regs [(0, 60)]).setST 60) ∧
      ((regs [(0, 60)]).setST 60).ST ≠ (regs [(0, 60)]).ST :=
  ⟨rfl, by decide, rfl, by decide⟩

/-- The same for the clauses on a step: one that raises `DT`, and one that raises `ST`. -/
theorem witness_CountsOnlyGoDown_step :
    (∃ t, step (withBytes (regs [(0, 60)]) 0x200 [0xF0, 0x15]) = .next t ∧
        (withBytes (regs [(0, 60)]) 0x200 [0xF0, 0x15]).DT.toNat < t.DT.toNat) ∧
      ∃ t, step (withBytes (regs [(0, 60)]) 0x200 [0xF0, 0x18]) = .next t ∧
        (withBytes (regs [(0, 60)]) 0x200 [0xF0, 0x18]).ST.toNat < t.ST.toNat :=
  ⟨⟨_, rfl, by decide⟩, ⟨_, rfl, by decide⟩⟩

theorem witness_StepRunsTheDecodedInstruction :
    (fetching 0x0FFE [0x12, 0x04]).halted = false ∧ (fetching 0x0FFE [0x12, 0x04]).awaiting = false ∧
      (fetching 0x0FFE [0x12, 0x04]).pc.toNat + 1 ≤ 4095 ∧
      decode [Memory.byte (fetching 0x0FFE [0x12, 0x04]).mem (fetching 0x0FFE [0x12, 0x04]).pc.toNat,
        Memory.byte (fetching 0x0FFE [0x12, 0x04]).mem
          ((fetching 0x0FFE [0x12, 0x04]).pc.toNat + 1)] = .ok (.jp 0x204, []) := by decide

theorem witness_UnknownWordOnlyEmitsItsDiagnostic :
    (fetching 0x0FFE [0xFF, 0xFF]).halted = false ∧ (fetching 0x0FFE [0xFF, 0xFF]).awaiting = false ∧
      (fetching 0x0FFE [0xFF, 0xFF]).pc.toNat + 1 ≤ 4095 ∧
      0xFFFF = wordOfBytes
        (Memory.byte (fetching 0x0FFE [0xFF, 0xFF]).mem (fetching 0x0FFE [0xFF, 0xFF]).pc.toNat)
        (Memory.byte (fetching 0x0FFE [0xFF, 0xFF]).mem
          ((fetching 0x0FFE [0xFF, 0xFF]).pc.toNat + 1)) ∧
      decodeWord 0xFFFF = .error (.unknownInstruction 0xFFFF) := by decide

theorem witness_FetchOutOfRangeHalts :
    (State.reset.jump 0x0FFF).halted = false ∧ (State.reset.jump 0x0FFF).awaiting = false ∧
      (State.reset.jump 0x0FFF).pc.toNat + 1 > 4095 := by decide

theorem witness_HaltedStepChangesNothing : (State.reset.raiseHere .stackUnderflow).halted = true := rfl

/-- The key wait with the coming step's keys lined up: none down, and key 2 the least. -/
theorem witness_KeyWaitStepResolvesOrWaits :
    (State.reset.beginWait 5).halted = false ∧ (State.reset.beginWait 5).awaiting = true ∧
      HostPort.nextInput { HostPort.reset with pending := [input 0 0] } = input 0 0 ∧
      (input 0 0).keys = 0 ∧
      HostPort.nextInput { HostPort.reset with pending := [input 0x0104 0] } = input 0x0104 0 ∧
      LeastKeyDown (input 0x0104 0).keys 2 := by
  unfold LeastKeyDown
  decide

/-- Inputs lined up, with and without `Present()`, and none lined up. -/
theorem witness_HostTurnSamplesAndPresents :
    ({ HostPort.reset with pending := [input 1 2, input 3 4] } : HostPort).pending =
        input 1 2 :: [input 3 4] ∧
      State.reset.port.pending = [] ∧
      (HostPort.nextInput { HostPort.reset with pending := [input 1 2] }).presents = false ∧
      (HostPort.nextInput
        { HostPort.reset with pending := [{ input 1 2 with presents := true }] }).presents = true :=
  ⟨rfl, rfl, rfl, rfl⟩

theorem witness_PlacedWordIsRun :
    Memory.wf State.reset.mem = true ∧ State.reset.pc.toNat + 1 ≤ 4095 ∧
      decodeTableWord 16 0xF155 = some (.storeRegs 1) := by decide

theorem witness_OnlyNamedRegistersAreWritten :
    (∃ t, exec (.addReg 1 2) State.reset = .next t) ∧ Instr.mayWrite 2 (.addReg 1 2) = false ∧
      Instr.mayWrite 3 (.loadRegs 2) = false :=
  ⟨⟨_, rfl⟩, rfl, rfl⟩

/-- One instruction for each clause that does change the store of the clause. -/
theorem witness_StoresAreReachedByTheirInstructions :
    (after (exec (.ldI 1) State.reset)).I ≠ State.reset.I ∧
      (after (exec (.call 1) State.reset)).stack ≠ State.reset.stack ∧
      Memory.byte (after (exec (.storeRegs 0) (regs [(0, 1)]))).mem 0 ≠
        Memory.byte (regs [(0, 1)]).mem 0 ∧
      (after (exec (.cls 0) State.reset)).dirty ≠ State.reset.dirty ∧
      (after (exec (.waitKey 1) State.reset)).awaiting ≠ State.reset.awaiting := by decide

theorem witness_OnlySixInstructionsCanHalt :
    (State.reset.halted = false ∧ (after (exec (.ret 0) State.reset)).halted = true) ∧
      ((stacked 16).halted = false ∧ (after (exec (.call 1) (stacked 16))).halted = true) ∧
      ((regsI 0x1000 []).halted = false ∧
        (after (exec (.loadRegs 0) (regsI 0x1000 []))).halted = true) := by decide

/-- The inputs may differ for an addition; for `Cxnn` the byte, for `Ex9E` the keys stay. -/
theorem witness_InputsReachOnlyTheirInstructions :
    (∃ t, exec (.addReg 1 2) (sampling 0 0) = .next t) ∧ (input 0xFFFF 7).rnd ≠ (sampling 0 0).port.sample.rnd ∧
      (∃ t, exec (.rnd 1 2) (sampling 0 7) = .next t) ∧ (input 0xFFFF 7).rnd = (sampling 0 7).port.sample.rnd ∧
      (∃ t, exec (.skp 1) (sampling 2 7) = .next t) ∧ (input 2 0).keys = (sampling 2 7).port.sample.keys :=
  ⟨⟨_, rfl⟩, by decide, ⟨_, rfl⟩, by decide, ⟨_, rfl⟩, by decide⟩

/-- A state that meets the invariant and is not the reset state, and its step. -/
theorem witness_StepKeepsTheInvariant :
    (stacked 16).Inv ∧ ∃ t, step (stacked 16) = .next t := by
  refine ⟨⟨rfl, ⟨by decide, ?_, by decide⟩, ⟨?_, ?_, rfl⟩, ⟨rfl, by decide⟩⟩, ⟨_, rfl⟩⟩
  · intro a ha
    have h : a = 0x0300 := List.eq_of_mem_replicate ha
    subst h
    decide
  · unfold Seconds.belowTick
    decide
  · unfold Seconds.belowTick
    decide

end Sys2Proof.Tests
end

section
/-! PROOFS. The fields of a word as numbers (R71): one rule for a run of bits, one equation per
field, and the obligation about the fields assembled from them. -/

namespace Sys2Proof

/-- The one rule behind R71's table: the `len` bits of a word from bit `start` on are the digit
that division and remainder give. -/
theorem Word.toNat_extractLsb' (w : Word) (start len : Nat) :
    (w.extractLsb' start len).toNat = w.toNat / 2 ^ start % 2 ^ len := by
  rw [BitVec.extractLsb'_toNat, Nat.shiftRight_eq_div_pow]

/-! ### Each field by division and remainder -/

/-- The top digit needs no remainder: a word is below `16 * 4096`. -/
@[simp] theorem Word.toNat_op (w : Word) : (Word.op w).toNat = w.toNat / 4096 := by
  have digit : (Word.op w).toNat = w.toNat / 4096 % 16 := Word.toNat_extractLsb' w 12 4
  have bound : w.toNat < 65536 := w.isLt
  omega

@[simp] theorem Word.toNat_xNibble (w : Word) : (Word.xNibble w).toNat = w.toNat / 256 % 16 :=
  Word.toNat_extractLsb' w 8 4

@[simp] theorem Word.val_x (w : Word) : (Word.x w).val = w.toNat / 256 % 16 :=
  Word.toNat_xNibble w

@[simp] theorem Word.toNat_yNibble (w : Word) : (Word.yNibble w).toNat = w.toNat / 16 % 16 :=
  Word.toNat_extractLsb' w 4 4

@[simp] theorem Word.val_y (w : Word) : (Word.y w).val = w.toNat / 16 % 16 :=
  Word.toNat_yNibble w

/-- A field that starts at bit 0 is a remainder alone. -/
theorem Word.toNat_extractLsb'_zero (w : Word) (len : Nat) :
    (w.extractLsb' 0 len).toNat = w.toNat % 2 ^ len := by
  rw [Word.toNat_extractLsb', pow_zero, Nat.div_one]

@[simp] theorem Word.toNat_n (w : Word) : (Word.n w).toNat = w.toNat % 16 :=
  Word.toNat_extractLsb'_zero w 4

@[simp] theorem Word.toNat_nn (w : Word) : (Word.nn w).toNat = w.toNat % 256 :=
  Word.toNat_extractLsb'_zero w 8

@[simp] theorem Word.toNat_nnn (w : Word) : (Word.nnn w).toNat = w.toNat % 4096 :=
  Word.toNat_extractLsb'_zero w 12

/-! ### The wider fields and the two bytes from the digits -/

theorem Word.toNat_nn_eq_y_n (w : Word) :
    (Word.nn w).toNat = (Word.y w).val * 16 + (Word.n w).toNat := by
  rw [Word.toNat_nn, Word.val_y, Word.toNat_n]
  omega

theorem Word.toNat_nnn_eq_x_nn (w : Word) :
    (Word.nnn w).toNat = (Word.x w).val * 256 + (Word.nn w).toNat := by
  rw [Word.toNat_nnn, Word.val_x, Word.toNat_nn]
  omega

theorem Word.toNat_hiByte (w : Word) : (Word.hiByte w).toNat = w.toNat / 256 % 256 :=
  Word.toNat_extractLsb' w 8 8

theorem Word.toNat_hiByte_eq_op_x (w : Word) :
    (Word.hiByte w).toNat = (Word.op w).toNat * 16 + (Word.x w).val := by
  have bound : w.toNat < 65536 := w.isLt
  rw [Word.toNat_hiByte, Word.toNat_op, Word.val_x]
  omega

theorem Word.loByte_eq_nn (w : Word) : Word.loByte w = Word.nn w := rfl

/-- Settles O3: every conjunct is the equation of one field, and the wider fields and the bytes
follow from the digits by arithmetic. -/
theorem fieldsAreTheDigitsOfTheWord : Obligations.FieldsAreTheDigitsOfTheWord := fun w =>
  ⟨Word.toNat_op w, Word.toNat_xNibble w, Word.val_x w, Word.toNat_yNibble w, Word.val_y w,
    Word.toNat_n w, Word.toNat_nn w, Word.toNat_nnn w, Word.toNat_nn_eq_y_n w,
    Word.toNat_nnn_eq_x_nn w, Word.toNat_hiByte_eq_op_x w, Word.loByte_eq_nn w⟩

end Sys2Proof
end

section
/-! PROOFS. The transfers of control that only set pc: the jump (R102) and the skips on an immediate
(R104, R105). First the selection by `op`, then the one frame of all these instructions. -/

namespace Sys2Proof

/-! ### Words selected by the mask `0xF000` -/

/-- The mask keeps `op` whole, so the selecting pattern has the `op` of the word. -/
theorem Word.op_eq_of_and_mask {w m : Word} (h : w &&& 0xF000 = m) : Word.op w = Word.op m := by
  have mask : Word.op 0xF000 = 15#4 := rfl
  rw [← h, Word.op_and, mask, Laws.RowMatch.nibble_and_all]

theorem decodeWord_of_op_1 {w : Word} (h : Word.op w = 1) :
    decodeWord w = .ok (.jp (Word.nnn w)) := by
  rw [decodeWord, h]
  rfl

theorem decodeWord_of_op_3 {w : Word} (h : Word.op w = 3) :
    decodeWord w = .ok (.seImm (Word.x w) (Word.nn w)) := by
  rw [decodeWord, h]
  rfl

theorem decodeWord_of_op_4 {w : Word} (h : Word.op w = 4) :
    decodeWord w = .ok (.sneImm (Word.x w) (Word.nn w)) := by
  rw [decodeWord, h]
  rfl

end Sys2Proof

namespace Sys2Proof.Machine

/-! ### Setting pc leaves every other part unchanged -/

theorem unchangedExcept_pc_jump (s : State) (a : Addr) : UnchangedExcept [.pc] s (s.jump a) := by
  intro p hp
  cases p with
  | pc => simp at hp
  | _ => simp [Part.same]

/-- A skip is a jump to the next instruction or to the one after it (R100). -/
theorem State.skipIf_eq_jump (s : State) (c : Bool) :
    s.skipIf c = s.jump (if c then s.pc + 2 else s.pc) := rfl

theorem unchangedExcept_pc_skipIf (s : State) (c : Bool) :
    UnchangedExcept [.pc] s (s.skipIf c) := by
  rw [State.skipIf_eq_jump]
  exact unchangedExcept_pc_jump s _

/-! ### Where the skips on equal and on unequal bytes go -/

theorem State.skipIf_beq_pc (s : State) (a b : Byte) :
    (s.skipIf (a == b)).pc = if a = b then s.pc + 2 else s.pc := by
  simp

theorem State.skipIf_bne_pc (s : State) (a b : Byte) :
    (s.skipIf (a != b)).pc = if a = b then s.pc else s.pc + 2 := by
  by_cases h : a = b <;> simp [h]

/-! ### The arms of `exec` -/

theorem exec_jp (nnn : BitVec 12) (s : State) :
    exec (.jp nnn) s = .next (s.jump (addrOfNNN nnn)) := rfl

theorem exec_seImm (x : Reg) (nn : Byte) (s : State) :
    exec (.seImm x nn) s = .next (s.skipIf (s.readReg x == nn)) := rfl

theorem exec_sneImm (x : Reg) (nn : Byte) (s : State) :
    exec (.sneImm x nn) s = .next (s.skipIf (s.readReg x != nn)) := rfl

/-- Settles O12: the mask gives `op` and so the jump, whose effect is one write of pc. -/
theorem jumpSetsPcToNNN : Obligations.JumpSetsPcToNNN := by
  constructor
  · intro w h
    exact decodeWord_of_op_1 (Word.op_eq_of_and_mask h)
  · intro nnn s
    exact ⟨_, exec_jp nnn s, toNat_addrOfNNN nnn, unchangedExcept_pc_jump s _⟩

/-- Settles O18: the mask gives `op` and so the skip; each skip is `skipIf` on its comparison. -/
theorem skipsOnAnImmediate : Obligations.SkipsOnAnImmediate := by
  constructor
  · intro w
    exact ⟨fun h => decodeWord_of_op_3 (Word.op_eq_of_and_mask h),
      fun h => decodeWord_of_op_4 (Word.op_eq_of_and_mask h)⟩
  · intro x nn s
    constructor
    · exact ⟨_, exec_seImm x nn s, State.skipIf_beq_pc s _ nn, unchangedExcept_pc_skipIf s _⟩
    · exact ⟨_, exec_sneImm x nn s, State.skipIf_bne_pc s _ nn, unchangedExcept_pc_skipIf s _⟩

end Sys2Proof.Machine
end

section
/-! PROOFS. The register loads and the operations without a flag (R121 to R126): words selected by
`op` and `n`, then the one effect of all these instructions, a write of `V[x]`. -/

namespace Sys2Proof

/-! ### Words selected by `op` alone -/

theorem decodeWord_of_op_6 {w : Word} (h : Word.op w = 6) :
    decodeWord w = .ok (.ldImm (Word.x w) (Word.nn w)) := by
  rw [decodeWord, h]
  rfl

theorem decodeWord_of_op_7 {w : Word} (h : Word.op w = 7) :
    decodeWord w = .ok (.addImm (Word.x w) (Word.nn w)) := by
  rw [decodeWord, h]
  rfl

/-! ### Words of opcode 8, selected by the mask `0xF00F` -/

theorem decodeWord_of_op_8 {w : Word} (h : Word.op w = 8) : decodeWord w = decodeOp8 w := by
  rw [decodeWord, h]
  rfl

/-- The mask keeps `op` and `n` whole, so the selecting pattern has both of the word. -/
theorem Word.op_n_eq_of_and_mask {w m : Word} (h : w &&& 0xF00F = m) :
    Word.op w = Word.op m ∧ Word.n w = Word.n m := by
  have opMask : Word.op 0xF00F = 15#4 := rfl
  have nMask : Word.n 0xF00F = 15#4 := rfl
  constructor
  · rw [← h, Word.op_and, opMask, Laws.RowMatch.nibble_and_all]
  · rw [← h, Word.n_and, nMask, Laws.RowMatch.nibble_and_all]

/-- A word with the selecting pattern of an opcode 8 row goes to the second level of the decoder,
which sees the `n` of the pattern. -/
theorem decodeWord_and_n_of_mask {w m : Word} (h : w &&& 0xF00F = m) (hm : Word.op m = 8) :
    decodeWord w = decodeOp8 w ∧ Word.n w = Word.n m := by
  obtain ⟨hop, hn⟩ := Word.op_n_eq_of_and_mask h
  exact ⟨decodeWord_of_op_8 (hop.trans hm), hn⟩

theorem decodeWord_of_mask_8000 {w : Word} (h : w &&& 0xF00F = 0x8000) :
    decodeWord w = .ok (.ldReg (Word.x w) (Word.y w)) := by
  obtain ⟨hw, hn⟩ := decodeWord_and_n_of_mask h rfl
  rw [hw, decodeOp8, hn]
  rfl

theorem decodeWord_of_mask_8001 {w : Word} (h : w &&& 0xF00F = 0x8001) :
    decodeWord w = .ok (.or (Word.x w) (Word.y w)) := by
  obtain ⟨hw, hn⟩ := decodeWord_and_n_of_mask h rfl
  rw [hw, decodeOp8, hn]
  rfl

theorem decodeWord_of_mask_8002 {w : Word} (h : w &&& 0xF00F = 0x8002) :
    decodeWord w = .ok (.and (Word.x w) (Word.y w)) := by
  obtain ⟨hw, hn⟩ := decodeWord_and_n_of_mask h rfl
  rw [hw, decodeOp8, hn]
  rfl

theorem decodeWord_of_mask_8003 {w : Word} (h : w &&& 0xF00F = 0x8003) :
    decodeWord w = .ok (.xor (Word.x w) (Word.y w)) := by
  obtain ⟨hw, hn⟩ := decodeWord_and_n_of_mask h rfl
  rw [hw, decodeOp8, hn]
  rfl

end Sys2Proof

namespace Sys2Proof.Machine

/-! ### A register write leaves the other registers and every other part unchanged -/

theorem State.readReg_writeReg_ne (s : State) {r q : Reg} (b : Byte) (h : q ≠ r) :
    (s.writeReg r b).readReg q = s.readReg q := by
  rw [State.readReg_writeReg, if_neg h]

theorem unchangedExcept_regs_writeReg (s : State) (r : Reg) (b : Byte) :
    UnchangedExcept [.regs] s (s.writeReg r b) := by
  intro p hp
  cases p with
  | regs => simp at hp
  | _ => simp [Part.same]

/-! ### The arms of `exec` -/

theorem exec_ldImm (x : Reg) (nn : Byte) (s : State) :
    exec (.ldImm x nn) s = .next (s.writeReg x nn) := rfl

theorem exec_addImm (x : Reg) (nn : Byte) (s : State) :
    exec (.addImm x nn) s = .next (s.writeReg x (s.readReg x + nn)) := rfl

theorem exec_ldReg (x y : Reg) (s : State) :
    exec (.ldReg x y) s = .next (s.writeReg x (s.readReg y)) := rfl

theorem exec_or (x y : Reg) (s : State) :
    exec (.or x y) s = .next (s.writeReg x (s.readReg x ||| s.readReg y)) := rfl

theorem exec_and (x y : Reg) (s : State) :
    exec (.and x y) s = .next (s.writeReg x (s.readReg x &&& s.readReg y)) := rfl

theorem exec_xor (x y : Reg) (s : State) :
    exec (.xor x y) s = .next (s.writeReg x (s.readReg x ^^^ s.readReg y)) := rfl

/-- An instruction that writes one byte to `V[x]` and does nothing else leaves a state in which
`V[x]` has every property of that byte and all else is as it was. -/
theorem exec_effect_of_writeReg {i : Instr} {s : State} {x : Reg} {b : Byte} (P : Byte → Prop)
    (hexec : exec i s = .next (s.writeReg x b)) (hb : P b) :
    ∃ t, exec i s = .next t ∧ P (t.readReg x) ∧ (∀ r, r ≠ x → t.readReg r = s.readReg r) ∧
      UnchangedExcept [.regs] s t := by
  refine ⟨_, hexec, ?_, fun r hr => ?_, unchangedExcept_regs_writeReg s x b⟩
  · rwa [State.readReg_writeReg_same]
  · exact State.readReg_writeReg_ne s b hr

/-- Settles O20: the masks give the loads, and each load is one write of `V[x]`. -/
theorem loadsOfARegister : Obligations.LoadsOfARegister := by
  constructor
  · intro w
    exact ⟨fun h => decodeWord_of_op_6 (Word.op_eq_of_and_mask h), decodeWord_of_mask_8000⟩
  · intro x y nn s
    constructor
    · exact ⟨_, exec_ldImm x nn s, fun r => State.readReg_writeReg s x r nn,
        unchangedExcept_regs_writeReg s x nn⟩
    · exact ⟨_, exec_ldReg x y s, fun r => State.readReg_writeReg s x r (s.readReg y),
        unchangedExcept_regs_writeReg s x (s.readReg y)⟩

/-- Settles O21: the byte written is the sum of bytes, which is the sum modulo 256. -/
theorem addImmediateWrapsWithoutFlag : Obligations.AddImmediateWrapsWithoutFlag := by
  constructor
  · intro w h
    exact decodeWord_of_op_7 (Word.op_eq_of_and_mask h)
  · intro x nn s
    exact exec_effect_of_writeReg (fun b => b.toNat = ((s.readReg x).toNat + nn.toNat) % 256)
      (exec_addImm x nn s) (BitVec.toNat_add _ _)

/-- Settles O22: the byte written is the operation of the two old bytes, whose bits are the
operation of their bits. -/
theorem logicIsBitwiseWithoutFlag : Obligations.LogicIsBitwiseWithoutFlag := by
  constructor
  · intro w
    exact ⟨decodeWord_of_mask_8001, decodeWord_of_mask_8002, decodeWord_of_mask_8003⟩
  · intro x y s
    refine ⟨?or, ?and, ?xor⟩
    case or =>
      exact exec_effect_of_writeReg
        (fun b => ∀ k, b.getLsbD k = ((s.readReg x).getLsbD k || (s.readReg y).getLsbD k))
        (exec_or x y s) fun _ => BitVec.getLsbD_or
    case and =>
      exact exec_effect_of_writeReg
        (fun b => ∀ k, b.getLsbD k = ((s.readReg x).getLsbD k && (s.readReg y).getLsbD k))
        (exec_and x y s) fun _ => BitVec.getLsbD_and
    case xor =>
      exact exec_effect_of_writeReg
        (fun b => ∀ k, b.getLsbD k = ((s.readReg x).getLsbD k ^^ (s.readReg y).getLsbD k))
        (exec_xor x y s) fun _ => BitVec.getLsbD_xor

end Sys2Proof.Machine
end

section
/-! PROOFS. The two loads of the index register (R140, R142): words selected by `op` alone or by `op`
and `nn`, then the one effect of both, a write of I. -/

namespace Sys2Proof

/-! ### Words selected by `op`, and words of opcode 0xF, selected by the mask `0xF0FF` -/

theorem decodeWord_of_op_A {w : Word} (h : Word.op w = 0xA) :
    decodeWord w = .ok (.ldI (Word.nnn w)) := by
  rw [decodeWord, h]
  rfl

theorem decodeWord_of_op_F {w : Word} (h : Word.op w = 0xF) : decodeWord w = decodeOpF w := by
  rw [decodeWord, h]
  rfl

/-- The mask keeps `op` and `nn` whole, so the selecting pattern has both of the word. -/
theorem Word.op_nn_eq_of_and_mask {w m : Word} (h : w &&& 0xF0FF = m) :
    Word.op w = Word.op m ∧ Word.nn w = Word.nn m := by
  have opMask : Word.op 0xF0FF = 15#4 := rfl
  have nnMask : Word.nn 0xF0FF = 255#8 := rfl
  constructor
  · rw [← h, Word.op_and, opMask, Laws.RowMatch.nibble_and_all]
  · rw [← h, Word.nn_and, nnMask, Laws.RowMatch.byte_and_all]

theorem decodeWord_of_mask_F029 {w : Word} (h : w &&& 0xF0FF = 0xF029) :
    decodeWord w = .ok (.ldGlyph (Word.x w)) := by
  obtain ⟨hop, hnn⟩ := Word.op_nn_eq_of_and_mask h
  rw [decodeWord_of_op_F hop, decodeOpF, hnn]
  rfl

end Sys2Proof

namespace Sys2Proof.Machine

/-! ### Setting I leaves every other part unchanged -/

theorem unchangedExcept_index_setI (s : State) (a : Addr) :
    UnchangedExcept [.index] s (s.setI a) := by
  intro p hp
  cases p with
  | index => simp at hp
  | _ => simp [Part.same]

/-! ### The arms of `exec` -/

theorem exec_ldI (nnn : BitVec 12) (s : State) :
    exec (.ldI nnn) s = .next (s.setI (addrOfNNN nnn)) := rfl

theorem exec_ldGlyph (x : Reg) (s : State) :
    exec (.ldGlyph x) s = .next (s.setI (glyphAddr (s.readReg x))) := rfl

/-- Settles O27: the masks give the two loads, and each load is one write of I, whose 16 bits hold
every `nnn` and, as FONT_BASE is at most 432, every glyph address. -/
theorem indexLoads : Obligations.IndexLoads := by
  constructor
  · intro w
    exact ⟨fun h => decodeWord_of_op_A (Word.op_eq_of_and_mask h), decodeWord_of_mask_F029⟩
  · intro nnn x s
    constructor
    · exact ⟨_, exec_ldI nnn s, toNat_addrOfNNN nnn, unchangedExcept_index_setI s _⟩
    · exact ⟨_, exec_ldGlyph x s, toNat_glyphAddr (s.readReg x), unchangedExcept_index_setI s _⟩

end Sys2Proof.Machine
end

section
/-! PROOFS. The decoder and the encoder are inverse to each other (R70 to R79): the selection by `op`,
then everything the decoder can do, said once, and the round trips read off from it. -/

namespace Sys2Proof

/-! ### The opcodes with a second level, and those with one row each -/

theorem decodeWord_of_op_0 {w : Word} (h : Word.op w = 0x0) : decodeWord w = decodeOp0 w := by
  rw [decodeWord, h]
  rfl

theorem decodeWord_of_op_E {w : Word} (h : Word.op w = 0xE) : decodeWord w = decodeOpE w := by
  rw [decodeWord, h]
  rfl

theorem decodeWord_of_op_2 {w : Word} (h : Word.op w = 2) :
    decodeWord w = .ok (.call (Word.nnn w)) := by
  rw [decodeWord, h]
  rfl

theorem decodeWord_of_op_5 {w : Word} (h : Word.op w = 5) :
    decodeWord w = .ok (.seReg (Word.x w) (Word.y w) (Word.n w)) := by
  rw [decodeWord, h]
  rfl

theorem decodeWord_of_op_9 {w : Word} (h : Word.op w = 9) :
    decodeWord w = .ok (.sneReg (Word.x w) (Word.y w) (Word.n w)) := by
  rw [decodeWord, h]
  rfl

theorem decodeWord_of_op_C {w : Word} (h : Word.op w = 0xC) :
    decodeWord w = .ok (.rnd (Word.x w) (Word.nn w)) := by
  rw [decodeWord, h]
  rfl

theorem decodeWord_of_op_D {w : Word} (h : Word.op w = 0xD) :
    decodeWord w = .ok (.drw (Word.x w) (Word.y w) (Word.n w)) := by
  rw [decodeWord, h]
  rfl

/-! ### From an instruction to its word and back -/

/-- One case per row of R74: `op` selects the arm, the second level reads the selecting field that
the encoder wrote, and the operand fields are those of the word built from them. -/
theorem decodeWord_encode (i : Instr) : decodeWord (encode i) = .ok i := by
  cases i with
  | cls x => simp [encode, decodeWord_of_op_0, decodeOp0]
  | ret x => simp [encode, decodeWord_of_op_0, decodeOp0]
  | jp nnn => simp [encode, decodeWord_of_op_1]
  | call nnn => simp [encode, decodeWord_of_op_2]
  | seImm x nn => simp [encode, decodeWord_of_op_3]
  | sneImm x nn => simp [encode, decodeWord_of_op_4]
  | seReg x y n => simp [encode, decodeWord_of_op_5]
  | ldImm x nn => simp [encode, decodeWord_of_op_6]
  | addImm x nn => simp [encode, decodeWord_of_op_7]
  | sneReg x y n => simp [encode, decodeWord_of_op_9]
  | ldI nnn => simp [encode, decodeWord_of_op_A]
  | rnd x nn => simp [encode, decodeWord_of_op_C]
  | drw x y n => simp [encode, decodeWord_of_op_D]
  | skp x | sknp x => simp [encode, decodeWord_of_op_E, decodeOpE]
  | ldReg x y | or x y | and x y | xor x y | addReg x y | subReg x y | shr x y | subnReg x y
  | shl x y => simp [encode, decodeWord_of_op_8, decodeOp8]
  | _ x => simp [encode, decodeWord_of_op_F, decodeOpF]

/-- The decoder on bytes takes the word of the first two and leaves the rest (R57, R70). -/
theorem decode_bytes_of_word {w : Word} {i : Instr} (h : decodeWord w = .ok i) (rest : List Byte) :
    decode (Word.hiByte w :: Word.loByte w :: rest) = .ok (i, rest) := by
  simp [decode, wordOfBytes_bytes, h]

/-- Settles O5: the word is read back row by row, and its two bytes build the same word. -/
theorem decodeOfEncodeIsTheInstruction : Obligations.DecodeOfEncodeIsTheInstruction := fun i =>
  ⟨decodeWord_encode i, decode_bytes_of_word (decodeWord_encode i)⟩

/-! ### From a word to its instruction and back -/

theorem wordNNN_of_op {w : Word} {a : Nibble} (h : (Word.op w).toNat = a.toNat) :
    wordNNN a (Word.nnn w) = w := by
  rw [← BitVec.eq_of_toNat_eq h, wordNNN_fields]

theorem wordXNN_of_op {w : Word} {a : Nibble} (h : (Word.op w).toNat = a.toNat) :
    wordXNN a (Reg.nibble (Word.x w)) (Word.nn w) = w := by
  rw [← BitVec.eq_of_toNat_eq h]
  exact wordXNN_fields w

theorem wordXNN_of_op_nn {w : Word} {a : Nibble} {b : Byte} (h : Word.op w = a)
    (hb : (Word.nn w).toNat = b.toNat) : wordXNN a (Word.xNibble w) b = w := by
  rw [← h, ← BitVec.eq_of_toNat_eq hb, wordXNN_fields]

theorem word4_of_op {w : Word} {a : Nibble} (h : (Word.op w).toNat = a.toNat) :
    word4 a (Reg.nibble (Word.x w)) (Reg.nibble (Word.y w)) (Word.n w) = w := by
  rw [← BitVec.eq_of_toNat_eq h]
  exact word4_fields w

theorem word4_of_op_n {w : Word} {a b : Nibble} (h : Word.op w = a)
    (hb : (Word.n w).toNat = b.toNat) :
    word4 a (Reg.nibble (Word.x w)) (Reg.nibble (Word.y w)) b = w := by
  rw [← h, ← BitVec.eq_of_toNat_eq hb]
  exact word4_fields w

/-- What an answer `d` of the decoder on the word `w` may be: the word itself as unknown, or the
instruction that encodes to it. -/
def Answers (d : Except Rejection Instr) (w : Word) : Prop :=
  d = .error (.unknownInstruction w) ∨ ∃ i, d = .ok i ∧ encode i = w

theorem Answers.unknown (w : Word) : Answers (.error (.unknownInstruction w)) w := .inl rfl

theorem Answers.instr {i : Instr} {w : Word} (h : encode i = w) : Answers (.ok i) w :=
  .inr ⟨i, rfl, h⟩

theorem decodeOp0_answers {w : Word} (h : Word.op w = 0x0) : Answers (decodeOp0 w) w := by
  unfold decodeOp0
  split
  · next hn => exact .instr (wordXNN_of_op_nn h hn)
  · next hn => exact .instr (wordXNN_of_op_nn h hn)
  · exact .unknown w

theorem decodeOpE_answers {w : Word} (h : Word.op w = 0xE) : Answers (decodeOpE w) w := by
  unfold decodeOpE
  split
  · next hn => exact .instr (wordXNN_of_op_nn h hn)
  · next hn => exact .instr (wordXNN_of_op_nn h hn)
  · exact .unknown w

theorem decodeOp8_answers {w : Word} (h : Word.op w = 0x8) : Answers (decodeOp8 w) w := by
  unfold decodeOp8
  split
  case h_10 => exact .unknown w
  all_goals exact .instr (word4_of_op_n h ‹_›)

theorem decodeOpF_answers {w : Word} (h : Word.op w = 0xF) : Answers (decodeOpF w) w := by
  unfold decodeOpF
  split
  case h_10 => exact .unknown w
  all_goals exact .instr (wordXNN_of_op_nn h ‹_›)

/-- Everything the decoder can do (R72, R78). -/
theorem decodeWord_answers (w : Word) : Answers (decodeWord w) w := by
  unfold decodeWord
  split
  · next h => exact decodeOp0_answers (BitVec.eq_of_toNat_eq h)
  · next h => exact .instr (wordNNN_of_op h)
  · next h => exact .instr (wordNNN_of_op h)
  · next h => exact .instr (wordXNN_of_op h)
  · next h => exact .instr (wordXNN_of_op h)
  · next h => exact .instr (word4_of_op h)
  · next h => exact .instr (wordXNN_of_op h)
  · next h => exact .instr (wordXNN_of_op h)
  · next h => exact decodeOp8_answers (BitVec.eq_of_toNat_eq h)
  · next h => exact .instr (word4_of_op h)
  · next h => exact .instr (wordNNN_of_op h)
  · next h => exact .instr (wordXNN_of_op h)
  · next h => exact .instr (word4_of_op h)
  · next h => exact decodeOpE_answers (BitVec.eq_of_toNat_eq h)
  · next h => exact decodeOpF_answers (BitVec.eq_of_toNat_eq h)
  · exact .unknown w

theorem encode_of_decodeWord {w : Word} {i : Instr} (h : decodeWord w = .ok i) : encode i = w := by
  rcases decodeWord_answers w with he | ⟨j, hj, hw⟩
  · rw [h] at he
    cases he
  · rw [h] at hj
    cases hj
    exact hw

/-- Settles O6: an answer of the decoder that is an instruction encodes to the word. -/
theorem decodedWordIsItsEncoding : Obligations.DecodedWordIsItsEncoding :=
  fun _ _ h => encode_of_decodeWord h

/-- Settles O4: the ten words are closed terms, which the decoder evaluates. -/
theorem sampleWordsDecodeAsWritten : Obligations.SampleWordsDecodeAsWritten := by
  unfold Obligations.SampleWordsDecodeAsWritten
  decide

/-! ### The words that select no row (R79) -/

theorem decodeOp0_unknown_iff (w : Word) :
    decodeOp0 w = .error (.unknownInstruction w) ↔ (Word.nn w).toNat ∉ [0xE0, 0xEE] := by
  unfold decodeOp0
  split <;> simp_all

theorem decodeOp8_unknown_iff (w : Word) :
    decodeOp8 w = .error (.unknownInstruction w) ↔
      (Word.n w).toNat ∉ [0x0, 0x1, 0x2, 0x3, 0x4, 0x5, 0x6, 0x7, 0xE] := by
  unfold decodeOp8
  split <;> simp_all

theorem decodeOpE_unknown_iff (w : Word) :
    decodeOpE w = .error (.unknownInstruction w) ↔ (Word.nn w).toNat ∉ [0x9E, 0xA1] := by
  unfold decodeOpE
  split <;> simp_all

theorem decodeOpF_unknown_iff (w : Word) :
    decodeOpF w = .error (.unknownInstruction w) ↔
      (Word.nn w).toNat ∉ [0x07, 0x0A, 0x15, 0x18, 0x1E, 0x29, 0x33, 0x55, 0x65] := by
  unfold decodeOpF
  split <;> simp_all

/-- The unknown words by opcode: those the second levels refuse, and all of opcode 0xB. -/
theorem decodeWord_unknown_iff (w : Word) :
    decodeWord w = .error (.unknownInstruction w) ↔
      (w.toNat / 4096 = 0x0 ∧ decodeOp0 w = .error (.unknownInstruction w)) ∨
      (w.toNat / 4096 = 0x8 ∧ decodeOp8 w = .error (.unknownInstruction w)) ∨
      w.toNat / 4096 = 0xB ∨
      (w.toNat / 4096 = 0xE ∧ decodeOpE w = .error (.unknownInstruction w)) ∨
      (w.toNat / 4096 = 0xF ∧ decodeOpF w = .error (.unknownInstruction w)) := by
  have bound : (Word.op w).toNat < 16 := (Word.op w).isLt
  rw [Word.toNat_op] at bound
  unfold decodeWord
  rw [Word.toNat_op]
  generalize w.toNat / 4096 = k at bound ⊢
  split
  case h_16 =>
    have hk : k = 0xB := by
      simp only [imp_false] at *
      omega
    simp [hk]
  all_goals simp

/-- Settles O8: the second level of each opcode refuses the low digits that its list leaves out. -/
theorem unknownWordsAreThoseOfR79 : Obligations.UnknownWordsAreThoseOfR79 := by
  intro w
  constructor
  · rw [decodeWord_unknown_iff, decodeOp0_unknown_iff, decodeOp8_unknown_iff,
      decodeOpE_unknown_iff, decodeOpF_unknown_iff, Word.toNat_nn, Word.toNat_n]
  · rcases decodeWord_answers w with he | ⟨i, hi, _⟩
    · exact .inr he
    · exact .inl ⟨i, hi⟩

/-! ### The mask and match table (R74) -/

/-- Every word that encodes an instruction has the selecting bits of its row. -/
theorem encode_and_rowMask (i : Instr) : encode i &&& i.rowMask = i.rowMatch := by
  cases i with
  | cls x => exact (Laws.RowMatch.cls x).1
  | ret x => exact (Laws.RowMatch.ret x).1
  | jp nnn => exact (Laws.RowMatch.jp nnn).1
  | call nnn => exact (Laws.RowMatch.call nnn).1
  | seImm x nn => exact (Laws.RowMatch.seImm x nn).1
  | sneImm x nn => exact (Laws.RowMatch.sneImm x nn).1
  | seReg x y n => exact (Laws.RowMatch.seReg x y n).1
  | ldImm x nn => exact (Laws.RowMatch.ldImm x nn).1
  | addImm x nn => exact (Laws.RowMatch.addImm x nn).1
  | ldReg x y => exact (Laws.RowMatch.ldReg x y).1
  | or x y => exact (Laws.RowMatch.or x y).1
  | and x y => exact (Laws.RowMatch.and x y).1
  | xor x y => exact (Laws.RowMatch.xor x y).1
  | addReg x y => exact (Laws.RowMatch.addReg x y).1
  | subReg x y => exact (Laws.RowMatch.subReg x y).1
  | shr x y => exact (Laws.RowMatch.shr x y).1
  | subnReg x y => exact (Laws.RowMatch.subnReg x y).1
  | shl x y => exact (Laws.RowMatch.shl x y).1
  | sneReg x y n => exact (Laws.RowMatch.sneReg x y n).1
  | ldI nnn => exact (Laws.RowMatch.ldI nnn).1
  | rnd x nn => exact (Laws.RowMatch.rnd x nn).1
  | drw x y n => exact (Laws.RowMatch.drw x y n).1
  | skp x => exact (Laws.RowMatch.skp x).1
  | sknp x => exact (Laws.RowMatch.sknp x).1
  | ldRegDT x => exact (Laws.RowMatch.ldRegDT x).1
  | ldDTReg x => exact (Laws.RowMatch.ldDTReg x).1
  | ldSTReg x => exact (Laws.RowMatch.ldSTReg x).1
  | addI x => exact (Laws.RowMatch.addI x).1
  | ldGlyph x => exact (Laws.RowMatch.ldGlyph x).1
  | ldDigits x => exact (Laws.RowMatch.ldDigits x).1
  | storeRegs x => exact (Laws.RowMatch.storeRegs x).1
  | loadRegs x => exact (Laws.RowMatch.loadRegs x).1
  | waitKey x => exact (Laws.RowMatch.waitKey x).1

/-- The row of R74 of a decoder's answer, if it is an instruction. -/
def rowOfAnswer : Except Rejection Instr → Option (Word × Word)
  | .ok i => some (i.rowMask, i.rowMatch)
  | .error _ => none

theorem rowOfAnswer_eq_some {d : Except Rejection Instr} {p : Word × Word}
    (h : rowOfAnswer d = some p) : ∃ i, d = .ok i ∧ (i.rowMask, i.rowMatch) = p := by
  cases d with
  | ok i => exact ⟨i, rfl, Option.some.inj h⟩
  | error e => cases h

theorem rowOfAnswer_decodeOp0 {w m : Word} (h : Word.nn w = Word.nn m) :
    rowOfAnswer (decodeOp0 w) = rowOfAnswer (decodeOp0 m) := by
  unfold decodeOp0
  rw [h]
  split <;> rfl

theorem rowOfAnswer_decodeOp8 {w m : Word} (h : Word.n w = Word.n m) :
    rowOfAnswer (decodeOp8 w) = rowOfAnswer (decodeOp8 m) := by
  unfold decodeOp8
  rw [h]
  split <;> rfl

theorem rowOfAnswer_decodeOpE {w m : Word} (h : Word.nn w = Word.nn m) :
    rowOfAnswer (decodeOpE w) = rowOfAnswer (decodeOpE m) := by
  unfold decodeOpE
  rw [h]
  split <;> rfl

theorem rowOfAnswer_decodeOpF {w m : Word} (h : Word.nn w = Word.nn m) :
    rowOfAnswer (decodeOpF w) = rowOfAnswer (decodeOpF m) := by
  unfold decodeOpF
  rw [h]
  split <;> rfl

/-- The row that a word selects depends on `op` and, at a second level, on the field that selects
there. -/
theorem rowOfAnswer_decodeWord {w m : Word} (hop : Word.op w = Word.op m)
    (hn : (Word.op m).toNat = 0x8 → Word.n w = Word.n m)
    (hnn : (Word.op m).toNat ∈ [0x0, 0xE, 0xF] → Word.nn w = Word.nn m) :
    rowOfAnswer (decodeWord w) = rowOfAnswer (decodeWord m) := by
  unfold decodeWord
  rw [hop]
  generalize (Word.op m).toNat = k at hn hnn
  split
  case h_1 => exact rowOfAnswer_decodeOp0 (hnn (by decide))
  case h_9 => exact rowOfAnswer_decodeOp8 (hn rfl)
  case h_14 => exact rowOfAnswer_decodeOpE (hnn (by decide))
  case h_15 => exact rowOfAnswer_decodeOpF (hnn (by decide))
  all_goals rfl

/-- What a row of the table must be for masks to agree with the two-level dispatch: its mask keeps the
fields that select at its opcode, and its match word selects the row itself. -/
def rowSelectsItself (p : Word × Word) : Bool :=
  decide (Word.op p.1 = 15#4 ∧ ((Word.op p.2).toNat = 0x8 → Word.n p.1 = 15#4) ∧
    ((Word.op p.2).toNat ∈ [0x0, 0xE, 0xF] → Word.nn p.1 = 255#8) ∧
    rowOfAnswer (decodeWord p.2) = some p)

theorem opcodeRows_select_themselves : opcodeRows.all rowSelectsItself = true := by decide

/-- A word with the selecting bits of a row decodes to an instruction of that row. -/
theorem decodeWord_of_row {w : Word} {p : Word × Word} (hp : p ∈ opcodeRows)
    (hw : w &&& p.1 = p.2) : ∃ i, decodeWord w = .ok i ∧ (i.rowMask, i.rowMatch) = p := by
  obtain ⟨hop, hn, hnn, hrow⟩ :=
    of_decide_eq_true (List.all_eq_true.mp opcodeRows_select_themselves p hp)
  refine rowOfAnswer_eq_some (Eq.trans (rowOfAnswer_decodeWord ?_ (fun h => ?_) fun h => ?_) hrow)
  · rw [← hw, Word.op_and, hop, Laws.RowMatch.nibble_and_all]
  · rw [← hw, Word.n_and, hn h, Laws.RowMatch.nibble_and_all]
  · rw [← hw, Word.nn_and, hnn h, Laws.RowMatch.byte_and_all]

/-- Settles O7: a decoded word is the word of its instruction, which has the bits of its row; and
the row that a word selects is that of the match word it is masked to. -/
theorem dispatchAgreesWithTheTable : Obligations.DispatchAgreesWithTheTable := by
  refine ⟨fun w i h => ?_, fun w p => decodeWord_of_row, rfl⟩
  rw [← encode_of_decodeWord h]
  exact encode_and_rowMask i

end Sys2Proof
end

section
/-! PROOFS. The frames: what each update of the state leaves unchanged, what each arm of `exec` is, and
from both the parts of the state that an instruction may touch, said once for all instructions. -/

namespace Sys2Proof.Machine

/-! ### Frames compose -/

theorem Part.same_trans {s t u : State} {p : Part} (h : Part.same s t p) (h' : Part.same t u p) :
    Part.same s u p := by
  cases p with
  | regs | memory => exact fun r => (h' r).trans (h r)
  | pixels => exact fun r c => (h' r c).trans (h r c)
  | accumulators | keyWait | faults => exact ⟨h'.1.trans h.1, h'.2.trans h.2⟩
  | _ => exact Eq.trans h' h

theorem UnchangedExcept.mono {ps qs : List Part} {s t : State} (h : UnchangedExcept ps s t)
    (hsub : ∀ p ∈ ps, p ∈ qs) : UnchangedExcept qs s t :=
  fun p hp => h p fun hmem => hp (hsub p hmem)

theorem UnchangedExcept.trans {ps qs : List Part} {s t u : State} (h : UnchangedExcept ps s t)
    (h' : UnchangedExcept qs t u) : UnchangedExcept (ps ++ qs) s u := by
  intro p hp
  rw [List.mem_append, not_or] at hp
  exact Part.same_trans (h p hp.1) (h' p hp.2)

/-! ### The frame of each update -/

theorem unchangedExcept_regs_withV (s : State) (V : Vector Byte 16) :
    UnchangedExcept [.regs] s { s with V := V } := by
  intro p hp
  cases p with
  | regs => simp at hp
  | _ => simp [Part.same]

theorem unchangedExcept_regs_writeFlagThen (s : State) (c : Bool) (x : Reg) (b : Byte) :
    UnchangedExcept [.regs] s (s.writeFlagThen c x b) := by
  intro p hp
  cases p with
  | regs => simp at hp
  | _ => simp [Part.same]

theorem unchangedExcept_memory_setMem (s : State) (m : Memory) :
    UnchangedExcept [.memory] s (s.setMem m) := by
  intro p hp
  cases p with
  | memory => simp at hp
  | _ => simp [Part.same]

theorem unchangedExcept_stack_setStack (s : State) (l : List Addr) :
    UnchangedExcept [.stack] s (s.setStack l) := by
  intro p hp
  cases p with
  | stack => simp at hp
  | _ => simp [Part.same]

theorem unchangedExcept_delay_setDT (s : State) (b : Byte) :
    UnchangedExcept [.delay] s (s.setDT b) := by
  intro p hp
  cases p with
  | delay => simp at hp
  | _ => simp [Part.same]

theorem unchangedExcept_sound_setST (s : State) (b : Byte) :
    UnchangedExcept [.sound] s (s.setST b) := by
  intro p hp
  cases p with
  | sound => simp at hp
  | _ => simp [Part.same]

theorem unchangedExcept_display_setDisplay (s : State) (f : Frame) :
    UnchangedExcept [.pixels, .dirty] s (s.setDisplay f) := by
  intro p hp
  cases p with
  | pixels | dirty => simp at hp
  | _ => simp [Part.same]

theorem unchangedExcept_keyWait_beginWait (s : State) (x : Reg) :
    UnchangedExcept [.keyWait] s (s.beginWait x) := by
  intro p hp
  cases p with
  | keyWait => simp at hp
  | _ => simp [Part.same]

theorem unchangedExcept_faults_raise (s : State) (c : FaultCause) (a : Addr) :
    UnchangedExcept [.faults, .port] s (s.raise c a) := by
  intro p hp
  cases p with
  | faults | port => simp at hp
  | _ => simp [Part.same]

theorem unchangedExcept_faults_raiseHere (s : State) (c : FaultCause) :
    UnchangedExcept [.faults, .port] s (s.raiseHere c) :=
  unchangedExcept_faults_raise s c s.instrAddr

theorem tookFault_raiseHere (s : State) (c : FaultCause) :
    TookFault c (s.pc - 2) s (s.raiseHere c) := ⟨rfl, rfl, rfl⟩

/-! ### The arms of `exec` -/

theorem exec_cls (x : Nibble) (s : State) :
    exec (.cls x) s = .next (s.setDisplay Frame.blank) := rfl

theorem exec_ret_cons (x : Nibble) {s : State} {a : Addr} {rest : List Addr}
    (h : s.stack = a :: rest) : exec (.ret x) s = .next ((s.setStack rest).jump a) := by
  simp only [exec, execRet, State.pop, h]

theorem exec_ret_nil (x : Nibble) {s : State} (h : s.stack = []) :
    exec (.ret x) s = .next (s.raiseHere .stackUnderflow) := by
  simp only [exec, execRet, State.pop, h]

theorem exec_call_room (nnn : BitVec 12) {s : State} (h : s.stack.length < Config.stackDepth) :
    exec (.call nnn) s = .next ((s.setStack (s.pc :: s.stack)).jump (addrOfNNN nnn)) := by
  simp only [exec, execCall, State.push, h, if_true]

theorem exec_call_full (nnn : BitVec 12) {s : State} (h : ¬s.stack.length < Config.stackDepth) :
    exec (.call nnn) s = .next (s.raiseHere (.stackOverflow s.pc)) := by
  simp only [exec, execCall, State.push, h, if_false]

theorem exec_seReg (x y : Reg) (n : Nibble) (s : State) :
    exec (.seReg x y n) s = .next (s.skipIf (s.readReg x == s.readReg y)) := rfl

theorem exec_sneReg (x y : Reg) (n : Nibble) (s : State) :
    exec (.sneReg x y n) s = .next (s.skipIf (s.readReg x != s.readReg y)) := rfl

theorem exec_addReg (x y : Reg) (s : State) :
    exec (.addReg x y) s = .next (s.writeFlagThen (carryOut (s.readReg x) (s.readReg y)) x
      (s.readReg x + s.readReg y)) := rfl

theorem exec_subReg (x y : Reg) (s : State) :
    exec (.subReg x y) s = .next (s.writeFlagThen (strictlyGreater (s.readReg x) (s.readReg y)) x
      (s.readReg x - s.readReg y)) := rfl

theorem exec_shr (x y : Reg) (s : State) :
    exec (.shr x y) s =
      .next (s.writeFlagThen (bitOutRight (s.readReg x)) x (s.readReg x >>> 1)) := rfl

theorem exec_subnReg (x y : Reg) (s : State) :
    exec (.subnReg x y) s = .next (s.writeFlagThen (strictlyGreater (s.readReg y) (s.readReg x)) x
      (s.readReg y - s.readReg x)) := rfl

theorem exec_shl (x y : Reg) (s : State) :
    exec (.shl x y) s =
      .next (s.writeFlagThen (bitOutLeft (s.readReg x)) x (s.readReg x <<< 1)) := rfl

theorem exec_rnd (x : Reg) (nn : Byte) (s : State) :
    exec (.rnd x nn) s = .next (s.writeReg x (nn &&& s.port.sample.rnd)) := rfl

theorem exec_drw_ok (x y : Reg) {n : Nibble} {s : State}
    (h : spriteFault s.I.toNat n.toNat = none) :
    exec (.drw x y n) s = .next
      ((s.writeReg flagReg (flagByte (s.drawn x y n).collision)).setDisplay (s.drawn x y n).fb) := by
  simp only [exec, execDrw, h]

theorem exec_drw_fault (x y : Reg) {n : Nibble} {s : State} {a : Nat}
    (h : spriteFault s.I.toNat n.toNat = some a) :
    exec (.drw x y n) s = .next (s.raiseHere (.memOutOfBounds a)) := by
  simp only [exec, execDrw, h]

theorem exec_skp (x : Reg) (s : State) :
    exec (.skp x) s = .next (s.skipIf (s.keyDown (s.readReg x))) := rfl

theorem exec_sknp (x : Reg) (s : State) :
    exec (.sknp x) s = .next (s.skipIf (!s.keyDown (s.readReg x))) := rfl

theorem exec_ldRegDT (x : Reg) (s : State) : exec (.ldRegDT x) s = .next (s.writeReg x s.DT) := rfl

theorem exec_ldDTReg (x : Reg) (s : State) :
    exec (.ldDTReg x) s = .next (s.setDT (s.readReg x)) := rfl

theorem exec_ldSTReg (x : Reg) (s : State) :
    exec (.ldSTReg x) s = .next (s.setST (s.readReg x)) := rfl

theorem exec_addI (x : Reg) (s : State) :
    exec (.addI x) s = .next (s.setI (s.I + (s.readReg x).setWidth 16)) := rfl

theorem exec_ldDigits (x : Reg) (s : State) :
    exec (.ldDigits x) s = .next (State.storeAll (digitStores x s) s) := rfl

theorem exec_storeRegs (x : Reg) (s : State) :
    exec (.storeRegs x) s = .next
      (State.storeAll ((regsUpTo x).map fun r => (s.indexed r.val, s.readReg r)) s) := rfl

theorem exec_loadRegs (x : Reg) (s : State) :
    exec (.loadRegs x) s =
      .next (State.loadAll ((regsUpTo x).map fun r => (s.indexed r.val, r)) s) := rfl

theorem exec_waitKey_down (x : Reg) {k : Reg} {s : State} (h : lowestKey s.keys = some k) :
    exec (.waitKey x) s = .next (s.writeReg x (keyByte k)) := by
  simp only [exec, execWaitKey, h]

theorem exec_waitKey_none (x : Reg) {s : State} (h : lowestKey s.keys = none) :
    exec (.waitKey x) s = .next (s.beginWait x) := by
  simp only [exec, execWaitKey, h]

/-! ### The instructions whose arm branches, from their next state -/

theorem exec_ret_cases {x : Nibble} {s t : State} (h : exec (.ret x) s = .next t) :
    (s.stack = [] ∧ t = s.raiseHere .stackUnderflow) ∨
    ∃ a rest, s.stack = a :: rest ∧ t = (s.setStack rest).jump a := by
  cases hst : s.stack with
  | nil =>
    rw [exec_ret_nil x hst] at h
    cases h
    exact .inl ⟨rfl, rfl⟩
  | cons a rest =>
    rw [exec_ret_cons x hst] at h
    cases h
    exact .inr ⟨a, rest, rfl, rfl⟩

theorem exec_call_cases {nnn : BitVec 12} {s t : State} (h : exec (.call nnn) s = .next t) :
    (s.stack.length < Config.stackDepth ∧
      t = (s.setStack (s.pc :: s.stack)).jump (addrOfNNN nnn)) ∨
    (¬s.stack.length < Config.stackDepth ∧ t = s.raiseHere (.stackOverflow s.pc)) := by
  by_cases hst : s.stack.length < Config.stackDepth
  · rw [exec_call_room nnn hst] at h
    cases h
    exact .inl ⟨hst, rfl⟩
  · rw [exec_call_full nnn hst] at h
    cases h
    exact .inr ⟨hst, rfl⟩

theorem exec_drw_cases {x y : Reg} {n : Nibble} {s t : State}
    (h : exec (.drw x y n) s = .next t) :
    (spriteFault s.I.toNat n.toNat = none ∧
      t = (s.writeReg flagReg (flagByte (s.drawn x y n).collision)).setDisplay
        (s.drawn x y n).fb) ∨
    ∃ a, spriteFault s.I.toNat n.toNat = some a ∧ t = s.raiseHere (.memOutOfBounds a) := by
  cases hf : spriteFault s.I.toNat n.toNat with
  | none =>
    rw [exec_drw_ok x y hf] at h
    cases h
    exact .inl ⟨rfl, rfl⟩
  | some a =>
    rw [exec_drw_fault x y hf] at h
    cases h
    exact .inr ⟨a, rfl, rfl⟩

theorem exec_waitKey_cases {x : Reg} {s t : State} (h : exec (.waitKey x) s = .next t) :
    (lowestKey s.keys = none ∧ t = s.beginWait x) ∨
    ∃ k, lowestKey s.keys = some k ∧ t = s.writeReg x (keyByte k) := by
  cases hk : lowestKey s.keys with
  | none =>
    rw [exec_waitKey_none x hk] at h
    cases h
    exact .inl ⟨rfl, rfl⟩
  | some k =>
    rw [exec_waitKey_down x hk] at h
    cases h
    exact .inr ⟨k, rfl, rfl⟩

/-! ### The parts that an instruction may touch -/

/-- The parts of the state that an instruction may change, its fault among them (R46, R47, R204). -/
def Instr.touches : Instr → List Part
  | .cls _ => [.pixels, .dirty]
  | .ret _ | .call _ => [.pc, .stack, .faults, .port]
  | .jp _ | .seImm _ _ | .sneImm _ _ | .seReg _ _ _ | .sneReg _ _ _ | .skp _ | .sknp _ => [.pc]
  | .ldImm _ _ | .addImm _ _ | .ldReg _ _ | .or _ _ | .and _ _ | .xor _ _ | .rnd _ _
  | .addReg _ _ | .subReg _ _ | .shr _ _ | .subnReg _ _ | .shl _ _ | .ldRegDT _ => [.regs]
  | .ldI _ | .addI _ | .ldGlyph _ => [.index]
  | .drw _ _ _ => [.regs, .pixels, .dirty, .faults, .port]
  | .ldDTReg _ => [.delay]
  | .ldSTReg _ => [.sound]
  | .ldDigits _ | .storeRegs _ => [.memory, .faults, .port]
  | .loadRegs _ => [.regs, .faults, .port]
  | .waitKey _ => [.regs, .keyWait]

theorem unchangedExcept_storeAll (l : List (Nat × Byte)) (s : State) :
    UnchangedExcept [.memory, .faults, .port] s (State.storeAll l s) := by
  obtain ⟨l₁, _, h | ⟨a, _, h⟩⟩ := State.storeAll_cases l s
  · rw [h]
    exact (unchangedExcept_memory_setMem s _).mono (by decide)
  · rw [h]
    exact (unchangedExcept_memory_setMem s _).trans (unchangedExcept_faults_raiseHere _ _)

theorem unchangedExcept_loadAll (l : List (Nat × Reg)) (s : State) :
    UnchangedExcept [.regs, .faults, .port] s (State.loadAll l s) := by
  obtain ⟨V, _, h | ⟨a, _, h⟩⟩ := State.loadAll_cases l s
  · rw [h]
    exact (unchangedExcept_regs_withV s V).mono (by decide)
  · rw [h]
    exact (unchangedExcept_regs_withV s V).trans (unchangedExcept_faults_raiseHere _ _)

theorem exec_ret_frame (x : Nibble) (s : State) :
    ∃ t, exec (.ret x) s = .next t ∧ UnchangedExcept [.pc, .stack, .faults, .port] s t := by
  cases h : s.stack with
  | nil =>
    exact ⟨_, exec_ret_nil x h, (unchangedExcept_faults_raiseHere s _).mono (by decide)⟩
  | cons a rest =>
    exact ⟨_, exec_ret_cons x h, ((unchangedExcept_stack_setStack s rest).trans
      (unchangedExcept_pc_jump _ a)).mono (by decide)⟩

theorem exec_call_frame (nnn : BitVec 12) (s : State) :
    ∃ t, exec (.call nnn) s = .next t ∧ UnchangedExcept [.pc, .stack, .faults, .port] s t := by
  by_cases h : s.stack.length < Config.stackDepth
  · exact ⟨_, exec_call_room nnn h, ((unchangedExcept_stack_setStack s _).trans
      (unchangedExcept_pc_jump _ _)).mono (by decide)⟩
  · exact ⟨_, exec_call_full nnn h, (unchangedExcept_faults_raiseHere s _).mono (by decide)⟩

theorem exec_drw_frame (x y : Reg) (n : Nibble) (s : State) :
    ∃ t, exec (.drw x y n) s = .next t ∧
      UnchangedExcept [.regs, .pixels, .dirty, .faults, .port] s t := by
  cases h : spriteFault s.I.toNat n.toNat with
  | none =>
    exact ⟨_, exec_drw_ok x y h, ((unchangedExcept_regs_writeReg s _ _).trans
      (unchangedExcept_display_setDisplay _ _)).mono (by decide)⟩
  | some a =>
    exact ⟨_, exec_drw_fault x y h, (unchangedExcept_faults_raiseHere s _).mono (by decide)⟩

theorem exec_waitKey_frame (x : Reg) (s : State) :
    ∃ t, exec (.waitKey x) s = .next t ∧ UnchangedExcept [.regs, .keyWait] s t := by
  cases h : lowestKey s.keys with
  | none =>
    exact ⟨_, exec_waitKey_none x h, (unchangedExcept_keyWait_beginWait s x).mono (by decide)⟩
  | some k =>
    exact ⟨_, exec_waitKey_down x h, (unchangedExcept_regs_writeReg s x _).mono (by decide)⟩

/-- Every instruction answers a next state, and leaves every part unchanged but those it touches. -/
theorem exec_frame (i : Instr) (s : State) :
    ∃ t, exec i s = .next t ∧ UnchangedExcept (Instr.touches i) s t := by
  cases i with
  | cls => exact ⟨_, rfl, unchangedExcept_display_setDisplay s _⟩
  | ret x => exact exec_ret_frame x s
  | jp => exact ⟨_, rfl, unchangedExcept_pc_jump s _⟩
  | call nnn => exact exec_call_frame nnn s
  | seImm | sneImm | seReg | sneReg | skp | sknp =>
    exact ⟨_, rfl, unchangedExcept_pc_skipIf s _⟩
  | ldImm | addImm | ldReg | or | and | xor | rnd | ldRegDT =>
    exact ⟨_, rfl, unchangedExcept_regs_writeReg s _ _⟩
  | addReg | subReg | shr | subnReg | shl =>
    exact ⟨_, rfl, unchangedExcept_regs_writeFlagThen s _ _ _⟩
  | ldI | addI | ldGlyph => exact ⟨_, rfl, unchangedExcept_index_setI s _⟩
  | drw x y n => exact exec_drw_frame x y n s
  | ldDTReg => exact ⟨_, rfl, unchangedExcept_delay_setDT s _⟩
  | ldSTReg => exact ⟨_, rfl, unchangedExcept_sound_setST s _⟩
  | ldDigits | storeRegs => exact ⟨_, rfl, unchangedExcept_storeAll _ s⟩
  | loadRegs => exact ⟨_, rfl, unchangedExcept_loadAll _ s⟩
  | waitKey x => exact exec_waitKey_frame x s

/-- The frame of an instruction whose next state is at hand. -/
theorem unchangedExcept_touches {i : Instr} {s t : State} (h : exec i s = .next t) :
    UnchangedExcept (Instr.touches i) s t := by
  obtain ⟨t', h', hframe⟩ := exec_frame i s
  rw [h] at h'
  cases h'
  exact hframe

end Sys2Proof.Machine
end

section
/-! PROOFS. What every instruction keeps: the stores each may change, the faults each may raise, the
registers each may write and the inputs each reads. -/

namespace Sys2Proof.Machine

/-! ### Which instructions touch a part -/

theorem index_touched {i : Instr} (h : .index ∈ Instr.touches i) :
    (∃ nnn, i = .ldI nnn) ∨ (∃ x, i = .addI x) ∨ ∃ x, i = .ldGlyph x := by
  cases i <;> simp [Instr.touches] at h ⊢

theorem stack_touched {i : Instr} (h : .stack ∈ Instr.touches i) :
    (∃ nnn, i = .call nnn) ∨ ∃ x, i = .ret x := by
  cases i <;> simp [Instr.touches] at h ⊢

theorem memory_touched {i : Instr} (h : .memory ∈ Instr.touches i) :
    (∃ x, i = .ldDigits x) ∨ ∃ x, i = .storeRegs x := by
  cases i <;> simp [Instr.touches] at h ⊢

theorem display_touched {i : Instr} (h : .pixels ∈ Instr.touches i ∨ .dirty ∈ Instr.touches i) :
    (∃ x, i = .cls x) ∨ ∃ x y n, i = .drw x y n := by
  cases i <;> simp [Instr.touches] at h ⊢

theorem keyWait_touched {i : Instr} (h : .keyWait ∈ Instr.touches i) : ∃ x, i = .waitKey x := by
  cases i <;> simp [Instr.touches] at h ⊢

theorem delay_touched {i : Instr} (h : .delay ∈ Instr.touches i) : ∃ x, i = .ldDTReg x := by
  cases i <;> simp [Instr.touches] at h ⊢

theorem sound_touched {i : Instr} (h : .sound ∈ Instr.touches i) : ∃ x, i = .ldSTReg x := by
  cases i <;> simp [Instr.touches] at h ⊢

theorem accumulators_untouched (i : Instr) : .accumulators ∉ Instr.touches i := by
  cases i <;> simp [Instr.touches]

/-- A part that an instruction changed is one that it touches. -/
theorem mem_touches_of_changed {i : Instr} {s t : State} {p : Part} (h : exec i s = .next t)
    (hne : ¬Part.same s t p) : p ∈ Instr.touches i :=
  Decidable.byContradiction fun hn => hne (unchangedExcept_touches h p hn)

/-- Settles O53: a store that changed is touched, and the list of what an instruction touches names
the store only for the instructions of the clause. -/
theorem storesAreReachedByTheirInstructions : Obligations.StoresAreReachedByTheirInstructions := by
  intro i s t h
  obtain ⟨hDT, hST⟩ := unchangedExcept_touches h .accumulators (accumulators_untouched i)
  refine ⟨fun hne => index_touched (mem_touches_of_changed h hne),
    fun hne => stack_touched (mem_touches_of_changed h hne), ?memory, ?display, ?keyWait, hDT, hST⟩
  case memory =>
    rintro ⟨a, hne⟩
    exact memory_touched (mem_touches_of_changed h fun hs => hne (hs a))
  case display =>
    rintro (⟨r, c, hne⟩ | hne)
    · exact display_touched (.inl (mem_touches_of_changed h fun hs => hne (hs r c)))
    · exact display_touched (.inr (mem_touches_of_changed h hne))
  case keyWait =>
    rintro (hne | hne)
    · exact keyWait_touched (mem_touches_of_changed h fun hs => hne hs.1)
    · exact keyWait_touched (mem_touches_of_changed h fun hs => hne hs.2)

/-! ### Faults -/

/-- The faults of R200 that an instruction can raise in a state, each with its own info. -/
def MayRaise (s : State) : Instr → FaultCause → Prop
  | .ret _, c => c = .stackUnderflow
  | .call _, c => c = .stackOverflow s.pc
  | .ldDigits _, c | .storeRegs _, c | .loadRegs _, c | .drw _ _ _, c =>
    ∃ a, a > 4095 ∧ c = .memOutOfBounds a
  | _, _ => False

theorem storeAll_faults (l : List (Nat × Byte)) (s : State) :
    Part.same s (State.storeAll l s) .faults ∨ ∃ c, (∃ a, a > 4095 ∧ c = .memOutOfBounds a) ∧
      TookFault c (s.pc - 2) s (State.storeAll l s) := by
  obtain ⟨l₁, _, h | ⟨a, ha, h⟩⟩ := State.storeAll_cases l s
  · rw [h]
    exact .inl ⟨rfl, rfl⟩
  · rw [h]
    exact .inr ⟨_, ⟨a, (inMemory_eq_false_iff a).mp ha, rfl⟩, rfl, rfl, rfl⟩

theorem loadAll_faults (l : List (Nat × Reg)) (s : State) :
    Part.same s (State.loadAll l s) .faults ∨ ∃ c, (∃ a, a > 4095 ∧ c = .memOutOfBounds a) ∧
      TookFault c (s.pc - 2) s (State.loadAll l s) := by
  obtain ⟨V, _, h | ⟨a, ha, h⟩⟩ := State.loadAll_cases l s
  · rw [h]
    exact .inl ⟨rfl, rfl⟩
  · rw [h]
    exact .inr ⟨_, ⟨a, (inMemory_eq_false_iff a).mp ha, rfl⟩, rfl, rfl, rfl⟩

/-- The eager check of `Dxyn` names an address above 4095 (R162). -/
theorem spriteFault_gt {base n a : Nat} (h : spriteFault base n = some a) : a > 4095 := by
  unfold spriteFault at h
  split at h
  · cases h
    exact Nat.lt_of_lt_of_le (by decide) (Nat.le_max_right base Config.memSize)
  · cases h

/-- An instruction leaves `halted` and the fault record, or raises a fault of its own. -/
theorem exec_faults {i : Instr} {s t : State} (h : exec i s = .next t) :
    Part.same s t .faults ∨ ∃ c, MayRaise s i c ∧ TookFault c (s.pc - 2) s t := by
  cases i with
  | ret x =>
    rcases exec_ret_cases h with ⟨_, rfl⟩ | ⟨a, rest, _, rfl⟩
    · exact .inr ⟨_, rfl, tookFault_raiseHere s _⟩
    · exact .inl ⟨rfl, rfl⟩
  | call nnn =>
    rcases exec_call_cases h with ⟨_, rfl⟩ | ⟨_, rfl⟩
    · exact .inl ⟨rfl, rfl⟩
    · exact .inr ⟨_, rfl, tookFault_raiseHere s _⟩
  | drw x y n =>
    rcases exec_drw_cases h with ⟨_, rfl⟩ | ⟨a, hf, rfl⟩
    · exact .inl ⟨rfl, rfl⟩
    · exact .inr ⟨_, ⟨a, spriteFault_gt hf, rfl⟩, tookFault_raiseHere s _⟩
  | ldDigits | storeRegs =>
    cases h
    exact storeAll_faults _ s
  | loadRegs =>
    cases h
    exact loadAll_faults _ s
  | _ => exact .inl (unchangedExcept_touches h .faults (by simp [Instr.touches]))

/-- Settles O54: a machine that was running and is halted has taken a fault, and the instruction is
one that may raise its cause. -/
theorem onlySixInstructionsCanHalt : Obligations.OnlySixInstructionsCanHalt := by
  intro i s t hrun h hhalt
  rcases exec_faults h with ⟨hsame, _⟩ | ⟨c, hc, htook⟩
  · rw [hsame, hrun] at hhalt
    cases hhalt
  · cases i with
    | ret x => exact .inl ⟨⟨x, rfl⟩, hc ▸ htook⟩
    | call nnn => exact .inr (.inl ⟨⟨nnn, rfl⟩, hc ▸ htook⟩)
    | ldDigits x =>
      obtain ⟨a, ha, rfl⟩ := hc
      exact .inr (.inr ⟨.inl ⟨x, rfl⟩, a, ha, htook⟩)
    | storeRegs x =>
      obtain ⟨a, ha, rfl⟩ := hc
      exact .inr (.inr ⟨.inr (.inl ⟨x, rfl⟩), a, ha, htook⟩)
    | loadRegs x =>
      obtain ⟨a, ha, rfl⟩ := hc
      exact .inr (.inr ⟨.inr (.inr (.inl ⟨x, rfl⟩)), a, ha, htook⟩)
    | drw x y n =>
      obtain ⟨a, ha, rfl⟩ := hc
      exact .inr (.inr ⟨.inr (.inr (.inr ⟨x, y, n, rfl⟩)), a, ha, htook⟩)
    | _ => exact hc.elim

/-! ### Registers -/

theorem State.readReg_writeFlagThen_ne (s : State) (c : Bool) {x r : Reg} (b : Byte)
    (hx : r ≠ x) (hf : r ≠ flagReg) : (s.writeFlagThen c x b).readReg r = s.readReg r := by
  rw [State.readReg_writeFlagThen, if_neg hx, if_neg hf]

/-- A block load leaves the registers above `x`. -/
theorem readReg_loadAll_regsUpTo (s : State) {x r : Reg} (h : ¬r ≤ x) :
    (State.loadAll ((regsUpTo x).map fun q => (s.indexed q.val, q)) s).readReg r =
      s.readReg r := by
  have hr : r ∉ ((regsUpTo x).map fun q => (s.indexed q.val, q)).map Prod.snd := by
    simpa [mem_regsUpTo] using h
  obtain ⟨V, hV, hl | ⟨a, _, hl⟩⟩ :=
    State.loadAll_cases ((regsUpTo x).map fun q => (s.indexed q.val, q)) s
  · rw [hl]
    exact hV r hr
  · rw [hl]
    exact hV r hr

/-- A register that an instruction does not name keeps its value (R21). -/
theorem readReg_exec {i : Instr} {s t : State} {r : Reg} (h : exec i s = .next t)
    (hr : Instr.mayWrite r i = false) : t.readReg r = s.readReg r := by
  cases i with
  | ldImm | addImm | ldReg | or | and | xor | rnd | ldRegDT =>
    cases h
    exact State.readReg_writeReg_ne s _ (by simpa [Instr.mayWrite] using hr)
  | addReg | subReg | shr | subnReg | shl =>
    cases h
    simp only [Instr.mayWrite, Bool.or_eq_false_iff, beq_eq_false_iff_ne] at hr
    exact State.readReg_writeFlagThen_ne s _ _ hr.1 hr.2
  | drw x y n =>
    rcases exec_drw_cases h with ⟨_, rfl⟩ | ⟨a, _, rfl⟩
    · exact State.readReg_writeReg_ne s _ (by simpa [Instr.mayWrite] using hr)
    · rfl
  | loadRegs x =>
    cases h
    exact readReg_loadAll_regsUpTo s (by simpa [Instr.mayWrite] using hr)
  | waitKey x =>
    rcases exec_waitKey_cases h with ⟨_, rfl⟩ | ⟨k, _, rfl⟩
    · rfl
    · exact State.readReg_writeReg_ne s _ (by simpa [Instr.mayWrite] using hr)
  | _ => exact unchangedExcept_touches h .regs (by simp [Instr.touches]) r

/-- Settles O52: instruction by instruction, from the one register write that each makes. -/
theorem onlyNamedRegistersAreWritten : Obligations.OnlyNamedRegistersAreWritten :=
  fun _ _ _ _ h hr => readReg_exec h hr

/-! ### Inputs -/

theorem storeAll_withSample (l : List (Nat × Byte)) (s : State) (x : StepInput) :
    State.storeAll l (s.withSample x) = (State.storeAll l s).withSample x := by
  induction l generalizing s with
  | nil => rfl
  | cons p l ih =>
    have hw : (s.withSample x).memWrite p.1 p.2 =
        (s.memWrite p.1 p.2).map (State.withSample · x) := by
      unfold State.memWrite
      split <;> rfl
    simp only [State.storeAll, hw]
    cases s.memWrite p.1 p.2 with
    | ok t => exact ih t
    | error c => rfl

theorem loadAll_withSample (l : List (Nat × Reg)) (s : State) (x : StepInput) :
    State.loadAll l (s.withSample x) = (State.loadAll l s).withSample x := by
  induction l generalizing s with
  | nil => rfl
  | cons p l ih =>
    have hr : (s.withSample x).memRead p.1 = s.memRead p.1 := rfl
    simp only [State.loadAll, hr]
    cases s.memRead p.1 with
    | ok b => exact ih (s.writeReg p.2 b)
    | error c => rfl

theorem keyDown_withSample {s : State} {x : StepInput} (h : x.keys = s.port.sample.keys)
    (v : Byte) : (s.withSample x).keyDown v = s.keyDown v := by
  have hkeys : (s.withSample x).keys = s.keys := h
  simp only [State.keyDown, hkeys]

/-- The condition of O55 on the other inputs: the byte stays for `Cxnn`, the keys for the three key
instructions. -/
def SameReadInputs (i : Instr) (s : State) (x : StepInput) : Prop :=
  ((∃ r nn, i = .rnd r nn) → x.rnd = s.port.sample.rnd) ∧
    ((∃ r, i = .skp r) ∨ (∃ r, i = .sknp r) ∨ (∃ r, i = .waitKey r) →
      x.keys = s.port.sample.keys)

/-- Sampling other inputs commutes with every instruction that does not read what changed. -/
theorem exec_withSample {i : Instr} {s t : State} {x : StepInput} (h : exec i s = .next t)
    (hx : SameReadInputs i s x) : exec i (s.withSample x) = .next (t.withSample x) := by
  obtain ⟨hrnd, hkeys⟩ := hx
  cases i with
  | rnd r nn =>
    cases h
    rw [exec_rnd, show (s.withSample x).port.sample.rnd = s.port.sample.rnd from hrnd ⟨r, nn, rfl⟩]
    rfl
  | skp r =>
    cases h
    rw [exec_skp, keyDown_withSample (hkeys (.inl ⟨r, rfl⟩))]
    rfl
  | sknp r =>
    cases h
    rw [exec_sknp, keyDown_withSample (hkeys (.inr (.inl ⟨r, rfl⟩)))]
    rfl
  | waitKey r =>
    have hsame : (s.withSample x).keys = s.keys := hkeys (.inr (.inr ⟨r, rfl⟩))
    rcases exec_waitKey_cases h with ⟨hk, rfl⟩ | ⟨k, hk, rfl⟩
    · exact exec_waitKey_none r (by rw [hsame, hk])
    · exact exec_waitKey_down r (by rw [hsame, hk])
  | ret n =>
    rcases exec_ret_cases h with ⟨hst, rfl⟩ | ⟨a, rest, hst, rfl⟩
    · exact exec_ret_nil n hst
    · exact exec_ret_cons n hst
  | call nnn =>
    rcases exec_call_cases h with ⟨hst, rfl⟩ | ⟨hst, rfl⟩
    · exact exec_call_room nnn hst
    · exact exec_call_full nnn hst
  | drw r q n =>
    rcases exec_drw_cases h with ⟨hf, rfl⟩ | ⟨a, hf, rfl⟩
    · exact exec_drw_ok r q hf
    · exact exec_drw_fault r q hf
  | ldDigits | storeRegs =>
    cases h
    exact congrArg Host.Outcome.next (storeAll_withSample _ s x)
  | loadRegs =>
    cases h
    exact congrArg Host.Outcome.next (loadAll_withSample _ s x)
  | _ =>
    cases h
    rfl

/-- Settles O55: the inputs are a field that every update but the reading ones leaves alone. -/
theorem inputsReachOnlyTheirInstructions : Obligations.InputsReachOnlyTheirInstructions :=
  fun _ _ _ _ h hrnd hkeys => exec_withSample h ⟨hrnd, hkeys⟩

end Sys2Proof.Machine
end

section
/-! PROOFS. The invariant of the reachable states: each of its four parts is kept by the host's turn,
by the timer advance and by every instruction, and so by every step. -/

namespace Sys2Proof.Machine

/-! ### A part of the invariant depends on the parts of the state it names -/

theorem State.PcInv.of_same {s t : State} (h : s.PcInv) (hpc : t.pc = s.pc)
    (hstack : t.stack = s.stack) : t.PcInv := by
  refine ⟨?_, ?_, ?_⟩
  · rw [hpc]
    exact h.pc_le
  · rw [hstack]
    exact h.entries_le
  · rw [hstack]
    exact h.depth_le

theorem State.TimerInv.of_same {s t : State} (h : s.TimerInv)
    (hacc : Part.same s t .accumulators) : t.TimerInv := by
  obtain ⟨hDT, hST⟩ := hacc
  refine ⟨?_, ?_, ?_⟩
  · rw [hDT]
    exact h.delay_below
  · rw [hST]
    exact h.sound_below
  · rw [hDT, hST]
    exact h.equal

theorem State.FaultInv.of_same {s t : State} (h : s.FaultInv) (hfaults : Part.same s t .faults)
    (hwait : t.awaiting = s.awaiting) : t.FaultInv := by
  obtain ⟨hhalted, hfault⟩ := hfaults
  refine ⟨?_, ?_⟩
  · rw [hhalted, hfault]
    exact h.recorded
  · rw [hhalted, hwait]
    exact h.not_waiting

/-- A machine that has taken a fault meets the invariant if it was not waiting. -/
theorem TookFault.faultInv {c : FaultCause} {a : Addr} {s t : State} (h : TookFault c a s t)
    (hwait : t.awaiting = false) : t.FaultInv := by
  obtain ⟨hhalted, hfault, _⟩ := h
  refine ⟨?_, fun _ => hwait⟩
  rw [hhalted, hfault]
  rfl

/-! ### Instructions -/

theorem wf_mem_storeAll (l : List (Nat × Byte)) {s : State} (h : Memory.wf s.mem = true) :
    Memory.wf (State.storeAll l s).mem = true := by
  obtain ⟨l₁, hin, hl | ⟨a, _, hl⟩⟩ := State.storeAll_cases l s
  · rw [hl]
    exact Memory.wf_writes l₁ h fun p hp => (hin p hp).2
  · rw [hl]
    exact Memory.wf_writes l₁ h fun p hp => (hin p hp).2

theorem mem_loadAll (l : List (Nat × Reg)) (s : State) : (State.loadAll l s).mem = s.mem := by
  obtain ⟨V, _, hl | ⟨a, _, hl⟩⟩ := State.loadAll_cases l s
  · rw [hl]
  · rw [hl]
    rfl

/-- Every instruction keeps memory canonical: only the block stores write it. -/
theorem wf_mem_exec {i : Instr} {s t : State} (h : exec i s = .next t)
    (hwf : Memory.wf s.mem = true) : Memory.wf t.mem = true := by
  cases i with
  | ldDigits | storeRegs =>
    cases h
    exact wf_mem_storeAll _ hwf
  | loadRegs =>
    cases h
    rwa [mem_loadAll]
  | ret x => rcases exec_ret_cases h with ⟨_, rfl⟩ | ⟨_, _, _, rfl⟩ <;> exact hwf
  | call nnn => rcases exec_call_cases h with ⟨_, rfl⟩ | ⟨_, rfl⟩ <;> exact hwf
  | drw x y n => rcases exec_drw_cases h with ⟨_, rfl⟩ | ⟨_, _, rfl⟩ <;> exact hwf
  | waitKey x => rcases exec_waitKey_cases h with ⟨_, rfl⟩ | ⟨_, _, rfl⟩ <;> exact hwf
  | _ =>
    cases h
    exact hwf

theorem addrOfNNN_le (nnn : BitVec 12) : (addrOfNNN nnn).toNat ≤ 0x1002 := by
  have bound : nnn.toNat < 4096 := nnn.isLt
  rw [toNat_addrOfNNN]
  omega

/-- Far below 65536 the next instruction's address does not wrap. -/
theorem toNat_add_two {a : Addr} (h : a.toNat ≤ 0x1000) : (a + 2).toNat = a.toNat + 2 := by
  have two : (2 : Addr).toNat = 2 := rfl
  rw [BitVec.toNat_add, two]
  omega

/-- A skip from at most 0x1000 ends at most at 0x1002 (R24). -/
theorem State.PcInv.skipIf {s : State} (h : s.PcInv) (hpc : s.pc.toNat ≤ 0x1000) (c : Bool) :
    (s.skipIf c).PcInv := by
  refine ⟨?_, h.entries_le, h.depth_le⟩
  rw [State.skipIf_pc]
  cases c with
  | false => exact h.pc_le
  | true =>
    rw [if_pos rfl, toNat_add_two hpc]
    omega

/-- Every instruction keeps the ranges of R24 when it starts from the pc that a fetch leaves. -/
theorem pcInv_exec {i : Instr} {s t : State} (h : exec i s = .next t) (hpc : s.pc.toNat ≤ 0x1000)
    (hinv : s.PcInv) : t.PcInv := by
  cases i with
  | jp nnn =>
    cases h
    exact ⟨addrOfNNN_le nnn, hinv.entries_le, hinv.depth_le⟩
  | seImm | sneImm | seReg | sneReg | skp | sknp =>
    cases h
    exact hinv.skipIf hpc _
  | ret x =>
    rcases exec_ret_cases h with ⟨_, rfl⟩ | ⟨a, rest, hst, rfl⟩
    · exact hinv.of_same rfl rfl
    · obtain ⟨_, hentries, hdepth⟩ := hinv
      rw [hst] at hentries hdepth
      refine ⟨?_, fun b hb => hentries b (List.mem_cons_of_mem a hb), Nat.le_of_succ_le hdepth⟩
      exact Nat.le_trans (hentries a List.mem_cons_self) (by decide)
  | call nnn =>
    rcases exec_call_cases h with ⟨hst, rfl⟩ | ⟨_, rfl⟩
    · exact ⟨addrOfNNN_le nnn, List.forall_mem_cons.mpr ⟨hpc, hinv.entries_le⟩, hst⟩
    · exact hinv.of_same rfl rfl
  | _ =>
    have hframe := unchangedExcept_touches h
    exact hinv.of_same (hframe .pc (by simp [Instr.touches]))
      (hframe .stack (by simp [Instr.touches]))

/-- No instruction but `Fx0A` begins a key wait, and `Fx0A` raises no fault (R207). -/
theorem faultInv_exec {i : Instr} {s t : State} (h : exec i s = .next t)
    (hhalted : s.halted = false) (hwait : s.awaiting = false) (hinv : s.FaultInv) :
    t.FaultInv := by
  have hframe := unchangedExcept_touches h
  rcases exec_faults h with ⟨hsame, hfault⟩ | ⟨c, hc, htook⟩
  · refine ⟨?_, fun ht => ?_⟩
    · rw [hsame, hfault]
      exact hinv.recorded
    · rw [hsame, hhalted] at ht
      cases ht
  · refine htook.faultInv (Eq.trans (And.left (hframe .keyWait ?_)) hwait)
    cases i <;> simp [MayRaise, Instr.touches] at hc ⊢

/-- Every instruction that a running machine executes keeps the invariant. -/
theorem inv_exec {i : Instr} {s t : State} (h : exec i s = .next t) (hpc : s.pc.toNat ≤ 0x1000)
    (hhalted : s.halted = false) (hwait : s.awaiting = false) (hinv : s.Inv) : t.Inv where
  mem := wf_mem_exec h hinv.mem
  control := pcInv_exec h hpc hinv.control
  timers := hinv.timers.of_same (unchangedExcept_touches h _ (accumulators_untouched i))
  faults := faultInv_exec h hhalted hwait hinv.faults

/-! ### The other parts of a step -/

theorem inv_hostTurn {s : State} (h : s.Inv) : s.hostTurn.Inv where
  mem := h.mem
  control := h.control.of_same rfl rfl
  timers := h.timers.of_same ⟨rfl, rfl⟩
  faults := h.faults.of_same ⟨rfl, rfl⟩ rfl

/-- Both accumulators hold what is left of the same amount of time (R33). -/
theorem timerInv_advanceTimers {s : State} (h : s.TimerInv) : s.advanceTimers.TimerInv := by
  by_cases hrun : s.timersRun
  · refine ⟨?_, ?_, ?_⟩
    · rw [State.advanceTimers_DTacc, if_pos hrun]
      exact Seconds.belowTick_leftover _
    · rw [State.advanceTimers_STacc, if_pos hrun]
      exact Seconds.belowTick_leftover _
    · rw [State.advanceTimers_DTacc, State.advanceTimers_STacc, h.equal]
      rfl
  · exact h.of_same ⟨by rw [State.advanceTimers_DTacc, if_neg hrun],
      by rw [State.advanceTimers_STacc, if_neg hrun]⟩

theorem inv_advanceTimers {s : State} (h : s.Inv) : s.advanceTimers.Inv where
  mem := h.mem
  control := h.control.of_same rfl rfl
  timers := timerInv_advanceTimers h.timers
  faults := h.faults.of_same ⟨rfl, rfl⟩ rfl

theorem State.resolveKeyWait_none {s : State} (h : lowestKey s.keys = none) :
    s.resolveKeyWait = s := by
  simp only [State.resolveKeyWait, h]

theorem State.resolveKeyWait_some {s : State} {k : Reg} (h : lowestKey s.keys = some k) :
    s.resolveKeyWait = (s.writeReg s.waitReg (keyByte k)).endWait := by
  simp only [State.resolveKeyWait, h]

theorem inv_resolveKeyWait {s : State} (h : s.Inv) : s.resolveKeyWait.Inv := by
  cases hk : lowestKey s.keys with
  | none => rwa [State.resolveKeyWait_none hk]
  | some k =>
    rw [State.resolveKeyWait_some hk]
    exact ⟨h.mem, h.control.of_same rfl rfl, h.timers.of_same ⟨rfl, rfl⟩, h.faults.recorded,
      fun _ => rfl⟩

/-- The fetch advance of a fetch that was in range ends at most at 0x1000. -/
theorem State.advancePc_le {s : State} (h : s.pc.toNat + 1 ≤ 4095) :
    s.advancePc.pc.toNat ≤ 0x1000 := by
  rw [State.advancePc_pc, toNat_add_two (by omega)]
  omega

theorem inv_advancePc {s : State} (h : s.Inv) (hpc : s.pc.toNat + 1 ≤ 4095) :
    s.advancePc.Inv where
  mem := h.mem
  control := ⟨Nat.le_trans (State.advancePc_le hpc) (by decide), h.control.entries_le,
    h.control.depth_le⟩
  timers := h.timers.of_same ⟨rfl, rfl⟩
  faults := h.faults.of_same ⟨rfl, rfl⟩ rfl

theorem inv_diagnose {s : State} (h : s.Inv) (w : Word) : (s.diagnose w).Inv where
  mem := h.mem
  control := h.control.of_same rfl rfl
  timers := h.timers.of_same ⟨rfl, rfl⟩
  faults := h.faults.of_same ⟨rfl, rfl⟩ rfl

theorem inv_raise {s : State} (h : s.Inv) (hwait : s.awaiting = false) (c : FaultCause)
    (a : Addr) : (s.raise c a).Inv where
  mem := h.mem
  control := h.control.of_same rfl rfl
  timers := h.timers.of_same ⟨rfl, rfl⟩
  faults := TookFault.faultInv (s := s) ⟨rfl, rfl, rfl⟩ hwait

/-- Settles O57: the five ways through a step, each made of updates that keep the invariant. -/
theorem stepKeepsTheInvariant : Obligations.StepKeepsTheInvariant := by
  intro s t hinv h
  have hturn : s.hostTurn.advanceTimers.Inv := inv_advanceTimers (inv_hostTurn hinv)
  rcases step_cases h with ⟨_, rfl⟩ | ⟨_, _, rfl⟩ | ⟨i, ⟨hhalted, hwait, hpc, _⟩, hexec⟩ |
    ⟨_, _, hpc, rfl⟩ | ⟨_, hwait, _, rfl⟩
  · exact inv_hostTurn hinv
  · exact inv_resolveKeyWait hturn
  · exact inv_exec hexec (State.advancePc_le hpc) hhalted hwait (inv_advancePc hturn hpc)
  · exact inv_diagnose (inv_advancePc hturn hpc) _
  · exact inv_raise hturn hwait _ _

/-- Settles O56: every part of the invariant is a closed fact about the reset state. -/
theorem resetMeetsTheInvariant : Obligations.ResetMeetsTheInvariant where
  mem := rfl
  control := ⟨by decide, fun _ ha => absurd ha List.not_mem_nil, by decide⟩
  timers := ⟨by unfold Seconds.belowTick; decide, by unfold Seconds.belowTick; decide, rfl⟩
  faults := ⟨rfl, fun h => by cases h⟩

end Sys2Proof.Machine
end

section
/-! PROOFS. Memory: the two primitives, the canonical form, the boot-time load, and the block
transfers of `Fx33`, `Fx55` and `Fx65`, in range and cut off at the end of memory. -/

namespace Sys2Proof

theorem Word.hiByte_wordOfBytes (hi lo : Byte) : Word.hiByte (wordOfBytes hi lo) = hi := by
  apply BitVec.eq_of_getLsbD_eq
  intro i hi
  simp only [Word.hiByte, wordOfBytes, BitVec.getLsbD_extractLsb', BitVec.getLsbD_append]
  grind

theorem Word.loByte_wordOfBytes (hi lo : Byte) : Word.loByte (wordOfBytes hi lo) = lo := by
  apply BitVec.eq_of_getLsbD_eq
  intro i hi
  simp only [Word.loByte, wordOfBytes, BitVec.getLsbD_extractLsb', BitVec.getLsbD_append]
  grind

end Sys2Proof

namespace Sys2Proof.Machine

/-! ### The two primitives and the fetch -/

theorem State.memRead_of_le (s : State) {a : Nat} (h : a ≤ 4095) :
    s.memRead a = .ok (Memory.byte s.mem a) :=
  State.memRead_ok (Nat.lt_succ_of_le h)

theorem State.memRead_of_gt (s : State) {a : Nat} (h : a > 4095) :
    s.memRead a = .error (.memOutOfBounds a) :=
  State.memRead_error (Nat.not_lt_of_le h)

theorem State.memWrite_of_le (s : State) {a : Nat} (v : Byte) (h : a ≤ 4095) :
    s.memWrite a v = .ok (s.setMem (Memory.setByte s.mem a v)) := by
  rw [State.memWrite, if_pos ((inMemory_iff a).mpr h)]

theorem State.memWrite_of_gt (s : State) {a : Nat} (v : Byte) (h : a > 4095) :
    s.memWrite a v = .error (.memOutOfBounds a) := by
  rw [State.memWrite, (inMemory_eq_false_iff a).mpr h]
  rfl

/-- Settles O9: the comparison with 4095 decides both primitives, and a write is `setByte`. -/
theorem memReadAndMemWriteAreBoundsChecked : Obligations.MemReadAndMemWriteAreBoundsChecked := by
  intro s a v hwf
  refine ⟨fun h => ⟨s.memRead_of_gt h, s.memWrite_of_gt v h⟩, fun h => ⟨s.memRead_of_le h, ?_⟩⟩
  exact ⟨_, s.memWrite_of_le v h, Memory.byte_setByte_same a v hwf,
    fun a' hne => Memory.byte_setByte_ne s.mem v hne, unchangedExcept_memory_setMem s _,
    Memory.wf_setByte v ((inMemory_iff a).mpr h) hwf⟩

theorem State.fetch_of_le {s : State} (h : s.pc.toNat + 1 ≤ 4095) :
    s.fetch = .ok (wordOfBytes (Memory.byte s.mem s.pc.toNat)
      (Memory.byte s.mem (s.pc.toNat + 1))) := by
  rcases s.fetch_cases with ⟨_, hf⟩ | ⟨hn, _⟩
  · exact hf
  · exact absurd (Nat.lt_succ_of_le h) hn

/-- Settles O10: the fetch reads two bytes of the memory that the store left. -/
theorem fetchSeesTheLatestStore : Obligations.FetchSeesTheLatestStore := by
  intro s t a v hwf hw hpc
  rcases s.memWrite_cases a v with ⟨_, hok⟩ | ⟨_, herr⟩
  · rw [hok] at hw
    cases hw
    refine ⟨_, State.fetch_of_le hpc, ?_, ?_⟩
    · rw [Word.hiByte_wordOfBytes]
      exact Memory.byte_setByte hwf a _ v
    · rw [Word.loByte_wordOfBytes]
      exact Memory.byte_setByte hwf a _ v
  · rw [herr] at hw
    cases hw

/-! ### The canonical form -/

theorem Memory.wfFrom_cons_iff (lo b : Nat) (v : Byte) (rest : Memory) :
    Memory.wfFrom lo ((b, v) :: rest) = true ↔
      lo ≤ b ∧ b < Config.memSize ∧ v ≠ unlistedByte ∧ Memory.wfFrom (b + 1) rest = true := by
  simp only [Memory.wfFrom, Bool.and_eq_true, decide_eq_true_eq, and_assoc]

theorem Memory.byte_head (b : Nat) (v : Byte) (rest : Memory) :
    Memory.byte ((b, v) :: rest) b = v := by
  simp [Memory.byte]

/-- A canonical memory whose first cell is at `c` differs from one that has a cell below `c`. -/
theorem Memory.byte_ne_of_head_lt {b c lo : Nat} {v : Byte} {rest m' : Memory}
    (h : Memory.wfFrom lo ((b, v) :: rest) = true) (h' : Memory.wfFrom c m' = true) (hlt : b < c) :
    Memory.byte ((b, v) :: rest) b ≠ Memory.byte m' b := by
  obtain ⟨_, _, hv, _⟩ := (Memory.wfFrom_cons_iff lo b v rest).mp h
  rw [Memory.byte_head, Memory.byte_of_lt h' hlt]
  exact hv

/-- The tails of canonical memories with the same head read alike if the memories do. -/
theorem Memory.byte_tail_eq {b : Nat} {v : Byte} {rest rest' : Memory}
    (h : Memory.wfFrom (b + 1) rest = true) (h' : Memory.wfFrom (b + 1) rest' = true)
    (hbyte : ∀ a, Memory.byte ((b, v) :: rest) a = Memory.byte ((b, v) :: rest') a) (a : Nat) :
    Memory.byte rest a = Memory.byte rest' a := by
  by_cases hab : a = b
  · rw [hab, Memory.byte_of_lt h (Nat.lt_succ_self b), Memory.byte_of_lt h' (Nat.lt_succ_self b)]
  · simpa [Memory.byte, hab] using hbyte a

/-- The lower bound of a memory may be raised to the address of its first cell. -/
theorem Memory.wfFrom_head {lo b : Nat} {v : Byte} {rest : Memory}
    (h : Memory.wfFrom lo ((b, v) :: rest) = true) : Memory.wfFrom b ((b, v) :: rest) = true := by
  obtain ⟨_, hrest⟩ := (Memory.wfFrom_cons_iff lo b v rest).mp h
  exact (Memory.wfFrom_cons_iff b b v rest).mpr ⟨Nat.le_refl b, hrest⟩

/-- Canonical memories that read alike are equal, cell by cell from the front. -/
theorem Memory.eq_of_byte_eq {m m' : Memory} {lo lo' : Nat} (h : Memory.wfFrom lo m = true)
    (h' : Memory.wfFrom lo' m' = true) (hbyte : ∀ a, Memory.byte m a = Memory.byte m' a) :
    m = m' := by
  induction m generalizing m' lo lo' with
  | nil =>
    cases m' with
    | nil => rfl
    | cons c rest' =>
      exact absurd (hbyte c.1).symm (Memory.byte_ne_of_head_lt (c := c.1 + 1) h' rfl (by omega))
  | cons c rest ih =>
    obtain ⟨b, v⟩ := c
    cases m' with
    | nil => exact absurd (hbyte b) (Memory.byte_ne_of_head_lt (c := b + 1) h rfl (by omega))
    | cons c' rest' =>
      obtain ⟨b', v'⟩ := c'
      obtain ⟨_, _, _, hrest⟩ := (Memory.wfFrom_cons_iff lo b v rest).mp h
      obtain ⟨_, _, _, hrest'⟩ := (Memory.wfFrom_cons_iff lo' b' v' rest').mp h'
      rcases Nat.lt_trichotomy b b' with hlt | rfl | hgt
      · exact absurd (hbyte b) (Memory.byte_ne_of_head_lt h (Memory.wfFrom_head h') hlt)
      · have hv : v = v' := by simpa only [Memory.byte_head] using hbyte b
        subst hv
        rw [ih hrest hrest' (Memory.byte_tail_eq hrest hrest' hbyte)]
      · exact absurd (hbyte b').symm (Memory.byte_ne_of_head_lt h' (Memory.wfFrom_head h) hgt)

/-- Settles O11: by induction on the two lists of cells. -/
theorem canonicalMemoriesReadingAlikeAreEqual :
    Obligations.CanonicalMemoriesReadingAlikeAreEqual :=
  fun _ _ h h' hbyte => Memory.eq_of_byte_eq h h' hbyte

/-! ### The boot-time load -/

theorem Memory.byte_setBytes_inside {m : Memory} (h : Memory.wf m = true) (a : Nat)
    (bs : List Byte) {j : Nat} (hj : j < bs.length) (hin : a + j < Config.memSize) :
    Memory.byte (Memory.setBytes m a bs) (a + j) = bs[j] := by
  rw [Memory.byte_setBytes h a bs _ hin, if_pos (Nat.le_add_right a j), Nat.add_sub_cancel_left,
    List.getElem?_eq_getElem hj, Option.getD_some]

theorem Memory.byte_setBytes_outside {m : Memory} (h : Memory.wf m = true) (a : Nat)
    (bs : List Byte) {a' : Nat} (hin : a' < Config.memSize)
    (hout : ¬(a ≤ a' ∧ a' < a + bs.length)) :
    Memory.byte (Memory.setBytes m a bs) a' = Memory.byte m a' := by
  rw [Memory.byte_setBytes h a bs a' hin]
  split
  · rw [List.getElem?_eq_none (by omega), Option.getD_none]
  · rfl

/-- Settles O2: the load places the font and then the image; the font lies wholly below 0x200, so
neither overwrites the other, and every other byte is still that of the empty memory. -/
theorem bootWritesGlyphsAndImageOnly : Obligations.BootWritesGlyphsAndImageOnly := by
  intro base font image
  have hbase : base.val < 433 := base.isLt
  have hwf : Memory.wf (Memory.setBytes State.reset.mem base.val font.toList) = true :=
    Memory.wf_setBytes base.val _ rfl
  have hfont : font.toList.length = 80 := by simp
  constructor
  · intro hlen
    refine ⟨_, if_pos hlen, Memory.wf_setBytes _ image hwf,
      unchangedExcept_memory_setMem State.reset _, fun j => ?_, fun j hj => ?_,
      fun a ha hnfont hnimage => ?_⟩
    · have hj : j.val < 80 := j.isLt
      rw [State.setMem_mem, Memory.byte_setBytes_outside hwf,
        Memory.byte_setBytes_inside rfl base.val font.toList (by omega)]
      · simp [Vector.get_eq_getElem]
      all_goals
        simp only [Config.memSize, Config.progBase]
        omega
    · rw [State.setMem_mem]
      refine Memory.byte_setBytes_inside hwf Config.progBase image hj ?_
      simp only [Config.memSize, Config.progBase]
      omega
    · rw [State.setMem_mem, Memory.byte_setBytes_outside hwf Config.progBase image ha hnimage,
        Memory.byte_setBytes_outside rfl _ _ ha (by rwa [hfont])]
      rfl
  · intro hlen
    exact if_neg (Nat.not_le_of_lt hlen)

/-! ### Block transfers: where the end of memory cuts the list of registers -/

theorem mem_take_allKeys (m r : Reg) : r ∈ allKeys.take m.val ↔ r < m := by
  revert m r
  decide

theorem take_allKeys_nodup (m : Reg) : (allKeys.take m.val).Nodup := by
  revert m
  decide

theorem regsUpTo_cut {m x : Reg} (h : m ≤ x) :
    regsUpTo x = allKeys.take m.val ++ m :: (regsUpTo x).drop (m.val + 1) := by
  revert m x
  decide

/-- A transfer that reaches past 4095 has a first register out of range, whose address is the first
offending one; the registers before it are those in range. -/
theorem State.exists_cut (s : State) {x : Reg} (h : s.I.toNat + x.val > 4095) :
    ∃ m : Reg, m ≤ x ∧ s.indexed m.val = max s.I.toNat 4096 ∧
      ∀ r : Reg, r < m ↔ s.indexed r.val ≤ 4095 := by
  have hx : x.val < 16 := x.isLt
  refine ⟨⟨4096 - s.I.toNat, by omega⟩, Fin.le_def.mpr ?_, ?_, fun r => ?_⟩
  · show 4096 - s.I.toNat ≤ x.val
    omega
  · show s.I.toNat + (4096 - s.I.toNat) = max s.I.toNat 4096
    omega
  · rw [Fin.lt_def]
    show r.val < 4096 - s.I.toNat ↔ s.I.toNat + r.val ≤ 4095
    omega

/-- In a transfer that stays in range every address is in memory. -/
theorem State.indexed_le {s : State} {x r : Reg} (h : s.I.toNat + x.val ≤ 4095) (hr : r ≤ x) :
    s.indexed r.val ≤ 4095 := by
  have hr' : r.val ≤ x.val := Fin.le_def.mp hr
  show s.I.toNat + r.val ≤ 4095
  omega

/-! ### Block stores -/

/-- The writes of a block: for each register of a list, one byte at the register's address. -/
def State.block (s : State) (f : Reg → Byte) (l : List Reg) : List (Nat × Byte) :=
  l.map fun r => (s.indexed r.val, f r)

theorem State.inMemory_block {s : State} {f : Reg → Byte} {l : List Reg}
    (hin : ∀ r ∈ l, s.indexed r.val ≤ 4095) : ∀ p ∈ s.block f l, inMemory p.1 = true := by
  intro p hp
  obtain ⟨r, hr, rfl⟩ := List.mem_map.mp hp
  exact (inMemory_iff _).mpr (hin r hr)

/-- Different registers have different addresses. -/
theorem State.nodup_block_addresses {s : State} {f : Reg → Byte} {l : List Reg} (hl : l.Nodup) :
    ((s.block f l).map Prod.fst).Nodup := by
  rw [State.block, List.map_map]
  exact hl.map fun r q h => Fin.ext (Nat.add_left_cancel h)

theorem byte_writes_block_mem {s : State} {f : Reg → Byte} {l : List Reg}
    (hwf : Memory.wf s.mem = true) (hl : l.Nodup) (hin : ∀ r ∈ l, s.indexed r.val ≤ 4095) {r : Reg}
    (hr : r ∈ l) : Memory.byte (Memory.writes s.mem (s.block f l)) (s.indexed r.val) = f r :=
  Memory.byte_writes_mem hwf (State.inMemory_block hin) (State.nodup_block_addresses hl)
    (List.mem_map.mpr ⟨r, hr, rfl⟩)

theorem byte_writes_block_other {s : State} {f : Reg → Byte} {l : List Reg} {a : Nat}
    (h : ∀ r ∈ l, s.indexed r.val ≠ a) :
    Memory.byte (Memory.writes s.mem (s.block f l)) a = Memory.byte s.mem a := by
  refine Memory.byte_writes_other s.mem _ a fun p hp => ?_
  obtain ⟨r, hr, rfl⟩ := List.mem_map.mp hp
  exact h r hr

/-- A block store in range writes the block and nothing else. -/
theorem storeAll_block_in_range {x : Reg} {s : State} (f : Reg → Byte)
    (hwf : Memory.wf s.mem = true) (h : s.I.toNat + x.val ≤ 4095) :
    (∀ r : Reg, r ≤ x → Memory.byte (State.storeAll (s.block f (regsUpTo x)) s).mem
      (s.indexed r.val) = f r) ∧
    (∀ a, ¬(s.indexed 0 ≤ a ∧ a ≤ s.indexed x.val) →
      Memory.byte (State.storeAll (s.block f (regsUpTo x)) s).mem a = Memory.byte s.mem a) ∧
    UnchangedExcept [.memory] s (State.storeAll (s.block f (regsUpTo x)) s) := by
  have hin : ∀ r ∈ regsUpTo x, s.indexed r.val ≤ 4095 := fun r hr =>
    State.indexed_le h ((mem_regsUpTo x r).mp hr)
  rw [State.storeAll_ok _ s (State.inMemory_block hin)]
  refine ⟨fun r hr => byte_writes_block_mem hwf (regsUpTo_nodup x) hin ((mem_regsUpTo x r).mpr hr),
    fun a ha => byte_writes_block_other fun r hr e => ha ?_, unchangedExcept_memory_setMem s _⟩
  have hr' : r.val ≤ x.val := (mem_regsUpTo x r).mp hr
  simp only [State.indexed] at e ⊢
  omega

/-- A block store that reaches past 4095 writes the part of the block that is in range and raises at
the first address above. -/
theorem storeAll_block_out_of_range {x : Reg} {s : State} (f : Reg → Byte)
    (hwf : Memory.wf s.mem = true) (h : s.I.toNat + x.val > 4095) :
    TookFault (.memOutOfBounds (max s.I.toNat 4096)) (s.pc - 2) s
      (State.storeAll (s.block f (regsUpTo x)) s) ∧
    (∀ r : Reg, s.indexed r.val ≤ 4095 →
      Memory.byte (State.storeAll (s.block f (regsUpTo x)) s).mem (s.indexed r.val) = f r) ∧
    (∀ a, ¬(s.indexed 0 ≤ a ∧ a ≤ s.indexed x.val ∧ a ≤ 4095) →
      Memory.byte (State.storeAll (s.block f (regsUpTo x)) s).mem a = Memory.byte s.mem a) ∧
    UnchangedExcept [.memory, .faults, .port] s (State.storeAll (s.block f (regsUpTo x)) s) := by
  obtain ⟨m, hmx, hm, hlt⟩ := s.exists_cut h
  have hin : ∀ r ∈ allKeys.take m.val, s.indexed r.val ≤ 4095 := fun r hr =>
    (hlt r).mp ((mem_take_allKeys m r).mp hr)
  have hcut : State.storeAll (s.block f (regsUpTo x)) s =
      (s.setMem (Memory.writes s.mem (s.block f (allKeys.take m.val)))).raiseHere
        (.memOutOfBounds (max s.I.toNat 4096)) := by
    rw [regsUpTo_cut hmx, State.block, List.map_append, List.map_cons, hm]
    exact State.storeAll_fault _ _ _ _ s (State.inMemory_block hin)
      ((inMemory_eq_false_iff _).mpr (Nat.le_max_right _ _))
  refine ⟨?_, fun r hr => ?_, fun a ha => ?_, unchangedExcept_storeAll _ s⟩
  · rw [hcut]
    exact ⟨rfl, rfl, rfl⟩
  · rw [hcut]
    exact byte_writes_block_mem hwf (take_allKeys_nodup m) hin
      ((mem_take_allKeys m r).mpr ((hlt r).mpr hr))
  · rw [hcut]
    refine byte_writes_block_other fun r hr e => ha ?_
    have hle := hin r hr
    simp only [State.indexed] at e hle ⊢
    omega

/-- Settles O31: the block of `Fx55` is the registers up to `x`. -/
theorem blockStoreInRange : Obligations.BlockStoreInRange :=
  fun x s hwf h => ⟨_, exec_storeRegs x s, storeAll_block_in_range s.readReg hwf h⟩

/-- Settles O32: the same block, cut off at the end of memory. -/
theorem blockStoreOutOfRangeHalts : Obligations.BlockStoreOutOfRangeHalts := by
  intro x s hwf h
  obtain ⟨htook, hin, hout, hframe⟩ := storeAll_block_out_of_range s.readReg hwf h
  exact ⟨_, exec_storeRegs x s, htook, fun r _ hr => hin r hr, hout, hframe⟩

/-! ### The digits of `Fx33` -/

/-- The digit that `Fx33` writes at `I + r` (R143). -/
def digitByte (v : Byte) (r : Reg) : Byte :=
  if r = 0 then (decimalDigits v).1
  else if r = 1 then (decimalDigits v).2.1
  else (decimalDigits v).2.2

/-- The three writes of `Fx33` are the block of the registers 0 to 2. -/
theorem digitStores_eq_block (x : Reg) (s : State) :
    digitStores x s = s.block (digitByte (s.readReg x)) (regsUpTo 2) := rfl

theorem toNat_digitByte_zero (v : Byte) : (digitByte v 0).toNat = v.toNat / 100 := by
  have bound : v.toNat < 256 := v.isLt
  show (BitVec.ofNat 8 (v.toNat / 100)).toNat = _
  rw [BitVec.toNat_ofNat]
  omega

theorem toNat_digitByte_one (v : Byte) : (digitByte v 1).toNat = v.toNat / 10 % 10 := by
  show (BitVec.ofNat 8 (v.toNat / 10 % 10)).toNat = _
  rw [BitVec.toNat_ofNat]
  omega

theorem toNat_digitByte_two (v : Byte) : (digitByte v 2).toNat = v.toNat % 10 := by
  show (BitVec.ofNat 8 (v.toNat % 10)).toNat = _
  rw [BitVec.toNat_ofNat]
  omega

/-- Settles O29: the block of three digits in range. -/
theorem digitsAreStoredInRange : Obligations.DigitsAreStoredInRange := by
  intro x s hwf h
  obtain ⟨hin, hout, hframe⟩ :=
    storeAll_block_in_range (x := 2) (digitByte (s.readReg x)) hwf h
  refine ⟨_, exec_ldDigits x s, ?_⟩
  rw [digitStores_eq_block]
  refine ⟨?_, ?_, ?_, fun a h0 h1 h2 => hout a ?_, hframe⟩
  · rw [← toNat_digitByte_zero, ← hin 0 (by decide)]
    rfl
  · rw [← toNat_digitByte_one, ← hin 1 (by decide)]
    rfl
  · rw [← toNat_digitByte_two, ← hin 2 (by decide)]
    rfl
  · simp only [State.indexed] at h0 h1 h2 ⊢
    show ¬(s.I.toNat + 0 ≤ a ∧ a ≤ s.I.toNat + 2)
    omega

/-- Settles O30: the block of three digits, cut off at the end of memory. -/
theorem digitsOutOfRangeHalt : Obligations.DigitsOutOfRangeHalt := by
  intro x s hwf h
  obtain ⟨htook, hin, hout, hframe⟩ :=
    storeAll_block_out_of_range (x := 2) (digitByte (s.readReg x)) hwf h
  refine ⟨_, exec_ldDigits x s, ?_⟩
  rw [digitStores_eq_block]
  refine ⟨htook, fun h0 => ?_, fun h1 => ?_, fun a ha => hout a fun hb => ha ?_, hframe⟩
  · rw [← toNat_digitByte_zero, ← hin 0 h0]
    rfl
  · rw [← toNat_digitByte_one, ← hin 1 h1]
    rfl
  · obtain ⟨hlo, _, hmem⟩ := hb
    refine ⟨hlo, ?_, hmem⟩
    show a ≤ s.I.toNat + 1
    omega

/-! ### Block loads -/

theorem State.inMemory_loads {s : State} {l : List Reg} (hin : ∀ r ∈ l, s.indexed r.val ≤ 4095) :
    ∀ p ∈ l.map fun r => (s.indexed r.val, r), inMemory p.1 = true := by
  intro p hp
  obtain ⟨r, hr, rfl⟩ := List.mem_map.mp hp
  exact (inMemory_iff _).mpr (hin r hr)

/-- Settles O33: all loads are made, and loads change registers alone. -/
theorem blockLoadInRange : Obligations.BlockLoadInRange := by
  intro x s h
  have hin : ∀ r ∈ regsUpTo x, s.indexed r.val ≤ 4095 := fun r hr =>
    State.indexed_le h ((mem_regsUpTo x r).mp hr)
  obtain ⟨V, hV⟩ := State.loads_eq s ((regsUpTo x).map fun r => (s.indexed r.val, r))
  refine ⟨_, exec_loadRegs x s, ?_⟩
  rw [State.loadAll_ok _ s (State.inMemory_loads hin)]
  refine ⟨fun r => ?_, hV ▸ unchangedExcept_regs_withV s V⟩
  simp only [State.readReg_loads_indexed s (regsUpTo_nodup x) r, mem_regsUpTo, Fin.le_def]

/-- Settles O34: the loads before the first register out of range are made, then the fault is
raised. -/
theorem blockLoadOutOfRangeHalts : Obligations.BlockLoadOutOfRangeHalts := by
  intro x s h
  obtain ⟨m, hmx, hm, hlt⟩ := s.exists_cut h
  have hin : ∀ r ∈ allKeys.take m.val, s.indexed r.val ≤ 4095 := fun r hr =>
    (hlt r).mp ((mem_take_allKeys m r).mp hr)
  have hcut : State.loadAll ((regsUpTo x).map fun r => (s.indexed r.val, r)) s =
      (State.loads s ((allKeys.take m.val).map fun r => (s.indexed r.val, r))).raiseHere
        (.memOutOfBounds (max s.I.toNat 4096)) := by
    rw [regsUpTo_cut hmx, List.map_append, List.map_cons, hm]
    exact State.loadAll_fault _ _ _ _ s (State.inMemory_loads hin)
      ((inMemory_eq_false_iff _).mpr (Nat.le_max_right _ _))
  obtain ⟨V, hV⟩ := State.loads_eq s ((allKeys.take m.val).map fun r => (s.indexed r.val, r))
  refine ⟨_, exec_loadRegs x s, ?_, fun r => ?_, unchangedExcept_loadAll _ s⟩
  · rw [hcut, hV]
    exact ⟨rfl, rfl, rfl⟩
  · have hmem : r ∈ allKeys.take m.val ↔ r ≤ x ∧ s.indexed r.val ≤ 4095 := by
      rw [mem_take_allKeys, hlt]
      exact ⟨fun hr => ⟨le_of_lt (lt_of_lt_of_le ((hlt r).mpr hr) hmx), hr⟩, And.right⟩
    rw [hcut, State.readReg_raiseHere, State.readReg_loads_indexed s (take_allKeys_nodup m) r]
    simp only [hmem]

end Sys2Proof.Machine
end

section
/-! PROOFS. The single instructions that write pc, the stack, a register with or without the flag, I,
a count or the key wait: each statement is the arm of `exec` with the rule of its one update. -/

namespace Sys2Proof.Machine

/-! ### Reset -/

/-- Settles O1: every row of the table is a field of the reset state. -/
theorem resetLeavesTheTableOfR39 : Obligations.ResetLeavesTheTableOfR39 := by
  have zeroRegs : ∀ r : Reg, State.reset.readReg r = 0x00 := by decide
  have zeroTime : Seconds.toRat ⟨0, 0⟩ = 0 := by simp [Seconds.toRat]
  exact ⟨fun _ => rfl, zeroRegs, rfl, rfl, rfl, rfl, rfl, zeroTime, zeroTime, Frame.pixel_blank,
    rfl, rfl, rfl, rfl, rfl⟩

/-! ### Calls, returns and skips -/

/-- Settles O13: a push and a jump. -/
theorem callPushesPcAndJumps : Obligations.CallPushesPcAndJumps := fun nnn s h =>
  ⟨_, exec_call_room nnn h, rfl, toNat_addrOfNNN nnn,
    ((unchangedExcept_stack_setStack s _).trans (unchangedExcept_pc_jump _ _)).mono (by decide)⟩

/-- Settles O14: the push is refused with the pc, and the fault is taken on the state as it is. -/
theorem callOnFullStackHalts : Obligations.CallOnFullStackHalts := fun nnn s h =>
  ⟨_, exec_call_full nnn (Nat.not_lt_of_le h), tookFault_raiseHere s _,
    unchangedExcept_faults_raiseHere s _⟩

/-- Settles O15: a pop and a jump. -/
theorem returnPopsThePc : Obligations.ReturnPopsThePc := fun x s a rest h =>
  ⟨_, exec_ret_cons x h, rfl, rfl,
    ((unchangedExcept_stack_setStack s rest).trans (unchangedExcept_pc_jump _ a)).mono (by decide)⟩

/-- Settles O16: the pop is refused, and the fault is taken on the state as it is. -/
theorem returnOnEmptyStackHalts : Obligations.ReturnOnEmptyStackHalts := fun x s h =>
  ⟨_, exec_ret_nil x h, tookFault_raiseHere s _, unchangedExcept_faults_raiseHere s _⟩

/-- Settles O17: the call leaves its pc on top of the old stack, and the return takes it from
there. -/
theorem returnUndoesTheCall : Obligations.ReturnUndoesTheCall := by
  intro nnn x s t u hroom hcall hstack
  rw [exec_call_room nnn hroom] at hcall
  cases hcall
  exact ⟨_, exec_ret_cons x hstack, rfl, rfl⟩

/-- Settles O19: each skip is `skipIf` on its comparison; the ignored nibble reaches no arm. -/
theorem skipsOnTwoRegisters : Obligations.SkipsOnTwoRegisters := fun x y n s =>
  ⟨⟨_, exec_seReg x y n s, State.skipIf_beq_pc s _ _, unchangedExcept_pc_skipIf s _⟩,
    ⟨_, exec_sneReg x y n s, State.skipIf_bne_pc s _ _, unchangedExcept_pc_skipIf s _⟩⟩

/-! ### Arithmetic with a flag -/

/-- An instruction that writes a flag to VF and then a result to `V[x]` leaves a state in which each
has every property of the byte written, at `x = 15` the result alone, and all else is as it was. -/
theorem exec_effect_of_writeFlagThen {i : Instr} {s : State} {c : Bool} {x : Reg} {b : Byte}
    (P Q : Byte → Prop) (hexec : exec i s = .next (s.writeFlagThen c x b)) (hb : P b)
    (hc : Q (flagByte c)) :
    ∃ t, exec i s = .next t ∧ P (t.readReg x) ∧ (x ≠ 15 → Q (t.readReg 15)) ∧
      (∀ r, r ≠ x → r ≠ 15 → t.readReg r = s.readReg r) ∧ UnchangedExcept [.regs] s t := by
  refine ⟨_, hexec, ?_, fun hx => ?_, fun r hr hf => s.readReg_writeFlagThen_ne c b hr hf,
    unchangedExcept_regs_writeFlagThen s c x b⟩
  · rwa [State.readReg_writeFlagThen, if_pos rfl]
  · rwa [State.readReg_writeFlagThen, if_neg hx.symm, if_pos rfl]

theorem flagByte_decide (p : Prop) [Decidable p] : flagByte (decide p) = if p then 1 else 0 := by
  by_cases h : p <;> simp [flagByte, h]

/-- A difference of bytes is the difference modulo 256. -/
theorem toNat_byte_sub (a b : Byte) : (a - b).toNat = (a.toNat + 256 - b.toNat) % 256 := by
  have hb : b.toNat < 256 := b.isLt
  rw [BitVec.toNat_sub]
  omega

theorem toNat_shiftRight_one (b : Byte) : (b >>> 1).toNat = b.toNat / 2 := by
  rw [BitVec.toNat_ushiftRight, Nat.shiftRight_eq_div_pow, pow_one]

theorem toNat_shiftLeft_one (b : Byte) : (b <<< 1).toNat = b.toNat * 2 % 256 := by
  rw [BitVec.toNat_shiftLeft, Nat.shiftLeft_eq, pow_one]

theorem toNat_flagByte_bitOutRight (b : Byte) :
    (flagByte (bitOutRight b)).toNat = b.toNat % 2 := by
  revert b
  decide

theorem toNat_flagByte_bitOutLeft (b : Byte) :
    (flagByte (bitOutLeft b)).toNat = b.toNat / 128 := by
  revert b
  decide

/-- Settles O23: the sum of bytes is the sum modulo 256, and the flag is its carry. -/
theorem addReportsTheCarry : Obligations.AddReportsTheCarry := fun x y s =>
  exec_effect_of_writeFlagThen
    (fun b => b.toNat = ((s.readReg x).toNat + (s.readReg y).toNat) % 256)
    (fun f => f = if (s.readReg x).toNat + (s.readReg y).toNat > 255 then 1 else 0)
    (exec_addReg x y s) (BitVec.toNat_add _ _) (flagByte_decide _)

/-- Settles O24: both subtractions, each with its minuend compared strictly. -/
theorem subtractionsReportStrictlyGreater : Obligations.SubtractionsReportStrictlyGreater :=
  fun x y s =>
  ⟨exec_effect_of_writeFlagThen
    (fun b => b.toNat = ((s.readReg x).toNat + 256 - (s.readReg y).toNat) % 256)
    (fun f => f = if (s.readReg x).toNat > (s.readReg y).toNat then 1 else 0)
    (exec_subReg x y s) (toNat_byte_sub _ _) (flagByte_decide _),
  exec_effect_of_writeFlagThen
    (fun b => b.toNat = ((s.readReg y).toNat + 256 - (s.readReg x).toNat) % 256)
    (fun f => f = if (s.readReg y).toNat > (s.readReg x).toNat then 1 else 0)
    (exec_subnReg x y s) (toNat_byte_sub _ _) (flagByte_decide _)⟩

/-- Settles O25: both shifts, each with the bit it shifts out. -/
theorem shiftsReportTheBitShiftedOut : Obligations.ShiftsReportTheBitShiftedOut := fun x y s =>
  ⟨exec_effect_of_writeFlagThen (fun b => b.toNat = (s.readReg x).toNat / 2)
    (fun f => f.toNat = (s.readReg x).toNat % 2)
    (exec_shr x y s) (toNat_shiftRight_one _) (toNat_flagByte_bitOutRight _),
  exec_effect_of_writeFlagThen (fun b => b.toNat = (s.readReg x).toNat * 2 % 256)
    (fun f => f.toNat = (s.readReg x).toNat / 128)
    (exec_shl x y s) (toNat_shiftLeft_one _) (toNat_flagByte_bitOutLeft _)⟩

/-! ### The random byte, the index and the counts -/

/-- Settles O26: one register write, of the masked byte that the step sampled. -/
theorem randomByteIsMasked : Obligations.RandomByteIsMasked := fun x nn s =>
  ⟨_, exec_rnd x nn s, fun r => State.readReg_writeReg s x r _, unchangedExcept_regs_writeReg s x _⟩

/-- Settles O28: one write of I, and the sum of 16-bit values is the sum modulo 65536. -/
theorem addToIndexWrapsWithoutFlag : Obligations.AddToIndexWrapsWithoutFlag := by
  intro x s
  refine ⟨_, exec_addI x s, ?_, unchangedExcept_index_setI s _⟩
  have bound : (s.readReg x).toNat < 256 := (s.readReg x).isLt
  rw [State.setI_I, BitVec.toNat_add, BitVec.toNat_setWidth]
  omega

/-- Settles O41: a register write and two writes of a count. -/
theorem timerReadsAndWrites : Obligations.TimerReadsAndWrites := fun x s =>
  ⟨⟨_, exec_ldRegDT x s, fun r => State.readReg_writeReg s x r _,
      unchangedExcept_regs_writeReg s x _⟩,
    ⟨_, exec_ldDTReg x s, rfl, unchangedExcept_delay_setDT s _⟩,
    ⟨_, exec_ldSTReg x s, rfl, unchangedExcept_sound_setST s _⟩⟩

/-! ### Keys -/

theorem State.keyDown_iff (s : State) (v : Byte) :
    s.keyDown v = true ↔ v.toNat ≤ 15 ∧ s.port.sample.keys.getLsbD v.toNat = true := by
  rw [State.keyDown, Bool.and_eq_true, decide_eq_true_eq]
  rfl

/-- Settles O39: each skip is `skipIf` on `keyDown` or on its negation. -/
theorem keySkips : Obligations.KeySkips := by
  intro x s
  refine ⟨⟨_, exec_skp x s, unchangedExcept_pc_skipIf s _, ?_⟩,
    ⟨_, exec_sknp x s, unchangedExcept_pc_skipIf s _, ?_⟩⟩
  · simp only [State.skipIf_pc, State.keyDown_iff]
  · simp only [State.skipIf_pc, Bool.not_eq_true', ← Bool.not_eq_true, State.keyDown_iff, ite_not]

theorem toNat_keyByte (k : Reg) : (keyByte k).toNat = k.val := by
  revert k
  decide

theorem lowestKey_leastKeyDown {keys : BitVec 16} {k : Reg} (h : lowestKey keys = some k) :
    LeastKeyDown keys k := lowestKey_eq_some h

/-- There is at most one least key down. -/
theorem LeastKeyDown.unique {keys : BitVec 16} {j k : Reg} (hj : LeastKeyDown keys j)
    (hk : LeastKeyDown keys k) : j = k := by
  rcases lt_trichotomy j k with hlt | heq | hgt
  · exact absurd hj.1 (by rw [hk.2 j hlt]; decide)
  · exact heq
  · exact absurd hk.1 (by rw [hj.2 k hgt]; decide)

/-- The search for the lowest key finds the least key down, when there is one. -/
theorem LeastKeyDown.lowestKey {keys : BitVec 16} {k : Reg} (h : LeastKeyDown keys k) :
    lowestKey keys = some k := by
  cases hl : Machine.lowestKey keys with
  | none =>
    rw [lowestKey_eq_none] at hl
    exact absurd h.1 (by simp [hl])
  | some j => rw [(lowestKey_leastKeyDown hl).unique h]

theorem exists_leastKeyDown {keys : BitVec 16} (h : keys ≠ 0) : ∃ k, LeastKeyDown keys k := by
  cases hl : lowestKey keys with
  | none => exact absurd ((lowestKey_eq_none keys).mp hl) h
  | some k => exact ⟨k, lowestKey_leastKeyDown hl⟩

/-- Settles O40: with no key down the wait begins, with some key down the least is written. -/
theorem waitKeyTakesAKeyOrWaits : Obligations.WaitKeyTakesAKeyOrWaits := by
  intro x s
  cases hl : lowestKey s.keys with
  | none =>
    have hzero : s.port.sample.keys = 0 := (lowestKey_eq_none _).mp hl
    refine ⟨_, exec_waitKey_none x hl, fun k hk => ?_,
      fun _ => ⟨rfl, rfl, unchangedExcept_keyWait_beginWait s x⟩, exists_leastKeyDown⟩
    exact absurd hk.1 (by simp [hzero])
  | some j =>
    refine ⟨_, exec_waitKey_down x hl, fun k hk => ⟨?_, fun r hr => ?_, ?_⟩, fun hzero => ?_,
      exists_leastKeyDown⟩
    · rw [State.readReg_writeReg_same, toNat_keyByte, (lowestKey_leastKeyDown hl).unique hk]
    · exact State.readReg_writeReg_ne s _ hr
    · exact unchangedExcept_regs_writeReg s x _
    · have hnone : lowestKey s.keys = none := (lowestKey_eq_none _).mpr hzero
      rw [hl] at hnone
      cases hnone

end Sys2Proof.Machine
end

section
/-! PROOFS. The display: what a draw in range does to each pixel and to VF, said once, and the
statements about one draw and about two from it. -/

namespace Sys2Proof.Machine

/-- Settles O35: one write of the framebuffer, with every pixel 0. -/
theorem clearBlanksTheDisplay : Obligations.ClearBlanksTheDisplay := fun x s =>
  ⟨_, exec_cls x s, Frame.pixel_blank, rfl, unchangedExcept_display_setDisplay s _⟩

/-- Settles O37: the eager check fails, and the fault is taken on the state as it is. -/
theorem drawOutOfRangeHalts : Obligations.DrawOutOfRangeHalts := by
  intro x y n s hn h
  have hn' : n.toNat ≠ 0 := fun e => hn (BitVec.eq_of_toNat_eq e)
  exact ⟨_, exec_drw_fault x y (spriteFault_some hn' h), tookFault_raiseHere s _,
    unchangedExcept_faults_raiseHere s _⟩

/-! ### The sprite over a pixel -/

/-- The bit that the sprite of `Dxyn` puts on a pixel, as the draw computes it. -/
def State.spriteAt (s : State) (x y : Reg) (n : Nibble) (r : Fin 32) (c : Fin 64) : Bool :=
  spriteOn s.mem s.I.toNat (startColumn (s.readReg x)) (startRow (s.readReg y)) 0 n.toNat r c

/-- The bit computed is the clipped sprite of R160 and R164(a). -/
theorem State.spriteAt_iff (s : State) (x y : Reg) (n : Nibble) (r : Fin 32) (c : Fin 64) :
    s.spriteAt x y n r c = true ↔ SpriteBitOn s x y n r c := by
  simp only [State.spriteAt, spriteOn, rowBit, Bool.and_eq_true, decide_eq_true_eq, and_assoc]
  rfl

/-- The sprite depends on memory, I and the two coordinates alone. -/
theorem spriteBitOn_congr {s t : State} {x y : Reg} (n : Nibble) (r : Fin 32) (c : Fin 64)
    (hmem : ∀ a, Memory.byte t.mem a = Memory.byte s.mem a) (hI : t.I = s.I)
    (hx : t.readReg x = s.readReg x) (hy : t.readReg y = s.readReg y) :
    SpriteBitOn t x y n r c ↔ SpriteBitOn s x y n r c := by
  unfold SpriteBitOn
  rw [hI, hx, hy, hmem]

theorem flagByte_eq_one_iff (b : Bool) : flagByte b = 1 ↔ b = true := by
  revert b
  decide

theorem flagByte_eq_zero_iff (b : Bool) : flagByte b = 0 ↔ b = false := by
  revert b
  decide

/-! ### One draw -/

/-- What a draw in range answers: the pixels under the sprite inverted, and VF the collision. -/
structure Draws (s : State) (x y : Reg) (n : Nibble) (t : State) : Prop where
  pixel : ∀ r c, Frame.pixel t.fb r c = (Frame.pixel s.fb r c != s.spriteAt x y n r c)
  collision : t.readReg 15 = 1 ↔ ∃ r c, SpriteBitOn s x y n r c ∧ Frame.pixel s.fb r c = true
  no_collision : t.readReg 15 = 0 ↔ ¬∃ r c, SpriteBitOn s x y n r c ∧ Frame.pixel s.fb r c = true
  other_regs : ∀ r, r ≠ 15 → t.readReg r = s.readReg r
  dirty : t.dirty = true
  frame : UnchangedExcept [.regs, .pixels, .dirty] s t

theorem State.drawn_collision_iff (s : State) (x y : Reg) (n : Nibble) :
    (s.drawn x y n).collision = true ↔
      ∃ r c, SpriteBitOn s x y n r c ∧ Frame.pixel s.fb r c = true := by
  simp only [← State.spriteAt_iff]
  exact (s.drawn_spec x y n).2

/-- A draw in range passes the eager check and draws. -/
theorem exec_drw_in_range {x y : Reg} {n : Nibble} {s : State}
    (h : n = 0 ∨ s.I.toNat + n.toNat ≤ 4096) :
    ∃ t, exec (.drw x y n) s = .next t ∧ Draws s x y n t := by
  have hn : n.toNat = 0 ∨ s.I.toNat + n.toNat ≤ 4096 := h.imp_left (congrArg BitVec.toNat)
  have hVF : State.readReg (State.setDisplay (s.writeReg flagReg
      (flagByte (s.drawn x y n).collision)) (s.drawn x y n).fb) 15 =
      flagByte (s.drawn x y n).collision := s.readReg_writeReg_same flagReg _
  refine ⟨_, exec_drw_ok x y (spriteFault_none hn), ?_⟩
  constructor
  case pixel => exact (s.drawn_spec x y n).1
  case collision => rw [hVF, flagByte_eq_one_iff, State.drawn_collision_iff]
  case no_collision =>
    rw [hVF, flagByte_eq_zero_iff, ← Bool.not_eq_true, State.drawn_collision_iff]
  case other_regs => exact fun r hr => State.readReg_writeReg_ne s _ hr
  case dirty => rfl
  case frame =>
    exact (unchangedExcept_regs_writeReg s _ _).trans (unchangedExcept_display_setDisplay _ _)

/-- Settles O36: under the sprite the exclusive or inverts the pixel, elsewhere it keeps it. -/
theorem drawXorsTheClippedSprite : Obligations.DrawXorsTheClippedSprite := by
  intro x y n s h
  obtain ⟨t, hexec, hdraws⟩ := exec_drw_in_range (x := x) (y := y) h
  refine ⟨t, hexec, fun r c hon => ?_, fun r c hoff => ?_, hdraws.collision.mpr,
    hdraws.no_collision.mpr, hdraws.other_regs, hdraws.dirty, hdraws.frame⟩
  · rw [hdraws.pixel, (s.spriteAt_iff x y n r c).mpr hon, Bool.bne_true]
  · rw [← s.spriteAt_iff, Bool.not_eq_true] at hoff
    rw [hdraws.pixel, hoff, Bool.bne_false]

/-! ### Two draws -/

/-- Settles O38: the second draw has the same sprite, and two exclusive ors with one bit cancel. -/
theorem drawingTwiceRestoresTheDisplay : Obligations.DrawingTwiceRestoresTheDisplay := by
  intro x y n s t h hexec hx hy
  obtain ⟨t', hexec', hfirst⟩ := exec_drw_in_range (x := x) (y := y) h
  obtain rfl : t' = t := by
    rw [hexec] at hexec'
    cases hexec'
    rfl
  have hI : t'.I = s.I := hfirst.frame .index (by decide)
  have hmem : ∀ a, Memory.byte t'.mem a = Memory.byte s.mem a := hfirst.frame .memory (by decide)
  have hsprite : ∀ r c, t'.spriteAt x y n r c = s.spriteAt x y n r c := fun r c => by
    rw [Bool.eq_iff_iff, State.spriteAt_iff, State.spriteAt_iff]
    exact spriteBitOn_congr n r c hmem hI hx hy
  obtain ⟨u, hexecu, hsecond⟩ := exec_drw_in_range (x := x) (y := y) (s := t') (n := n) (hI ▸ h)
  refine ⟨u, hexecu, fun r c => ?_, ?_⟩
  · rw [hsecond.pixel, hfirst.pixel, hsprite]
    cases s.spriteAt x y n r c <;> simp
  · rw [hsecond.collision]
    refine exists_congr fun r => exists_congr fun c => ?_
    rw [← State.spriteAt_iff, ← State.spriteAt_iff, hsprite, hfirst.pixel]
    cases s.spriteAt x y n r c <;> simp

end Sys2Proof.Machine
end

section
/-! PROOFS. Time and the step: the timer advance as rational arithmetic, each way through R41 as one
equation, and the statements about a step from them. -/

namespace Sys2Proof

/-! ### The timer advance (R32) -/

theorem Seconds.toRat_nonneg (t : Seconds) : 0 ≤ t.toRat :=
  div_nonneg (Nat.cast_nonneg _) (Nat.cast_nonneg _)

theorem Seconds.toRat_lt_of_belowTick {t : Seconds} (h : t.belowTick) : t.toRat < 1 / 60 := by
  have hnum : (t.num : ℚ) * 60 < t.den := by exact_mod_cast h
  have hden : (0 : ℚ) < t.den := Nat.cast_pos.mpr t.den_pos
  rw [Seconds.toRat, div_lt_div_iff₀ hden (by norm_num), one_mul]
  exact hnum

theorem toNat_countDown (count : Byte) (ticks : Nat) :
    (countDown count ticks).toNat = count.toNat - min count.toNat ticks := by
  have bound : count.toNat < 256 := count.isLt
  rw [countDown, BitVec.toNat_ofNat]
  exact Nat.mod_eq_of_lt (by omega)

theorem countDown_le (count : Byte) (ticks : Nat) :
    (countDown count ticks).toNat ≤ count.toNat := by
  rw [toNat_countDown]
  exact Nat.sub_le _ _

/-- Settles O42: the sum, the ticks and what is left over are the rational ones. -/
theorem timerAdvanceIsExact : Obligations.TimerAdvanceIsExact := by
  intro count acc dt
  have hticks : (acc.add dt).ticks = ⌊(acc.toRat + dt.toRat) * 60⌋₊ := by
    rw [Seconds.ticks_eq_floor, Seconds.toRat_add]
  refine ⟨?_, Seconds.toRat_nonneg _,
    Seconds.toRat_lt_of_belowTick (Seconds.belowTick_leftover _), ?_⟩
  · rw [← hticks, ← Seconds.toRat_add]
    exact Seconds.toRat_leftover _
  · rw [← hticks]
    exact toNat_countDown count _

end Sys2Proof

namespace Sys2Proof.Machine

/-! ### The frames of the parts of a step -/

theorem unchangedExcept_port_diagnose (s : State) (w : Word) :
    UnchangedExcept [.port] s (s.diagnose w) := by
  intro p hp
  cases p with
  | port => simp at hp
  | _ => simp [Part.same]

theorem unchangedExcept_hostTurn (s : State) : UnchangedExcept [.dirty, .port] s s.hostTurn := by
  intro p hp
  cases p with
  | dirty | port => simp at hp
  | _ => simp [Part.same]

theorem unchangedExcept_advanceTimers (s : State) :
    UnchangedExcept [.delay, .sound, .accumulators] s s.advanceTimers := by
  intro p hp
  cases p with
  | delay | sound | accumulators => simp at hp
  | _ => simp [Part.same]

theorem unchangedExcept_keyWait_endWait (s : State) : UnchangedExcept [.keyWait] s s.endWait := by
  intro p hp
  cases p with
  | keyWait => simp at hp
  | _ => simp [Part.same]

theorem unchangedExcept_resolveKeyWait (s : State) :
    UnchangedExcept [.regs, .keyWait] s s.resolveKeyWait := by
  cases hk : lowestKey s.keys with
  | none =>
    rw [State.resolveKeyWait_none hk]
    exact fun p _ => by cases p <;> simp [Part.same]
  | some k =>
    rw [State.resolveKeyWait_some hk]
    exact (unchangedExcept_regs_writeReg s _ _).trans (unchangedExcept_keyWait_endWait _)

/-- The state after the host's turn and the timer advance (R41 line 1). -/
def State.timed (s : State) : State := s.hostTurn.advanceTimers

theorem unchangedExcept_timed (s : State) :
    UnchangedExcept [.delay, .sound, .accumulators, .dirty, .port] s s.timed :=
  ((unchangedExcept_hostTurn s).trans (unchangedExcept_advanceTimers _)).mono (by decide)

/-- The frame of the state that a step hands to `exec` (R41 lines 1 and 3). -/
theorem unchangedExcept_timed_advancePc (s : State) :
    UnchangedExcept [.pc, .delay, .sound, .accumulators, .dirty, .port] s s.timed.advancePc :=
  ((unchangedExcept_timed s).trans (unchangedExcept_pc_jump _ _)).mono (by decide)

/-! ### The timers of a step -/

theorem State.timersRun_of_running {s : State} (h : s.awaiting = false) : s.timersRun = true := by
  rw [State.timersRun, h]
  rfl

theorem State.timersRun_of_waiting {s : State} (h : s.awaiting = true) :
    s.timersRun = Config.timersRunDuringKeyWait := by
  rw [State.timersRun, h]
  rfl

/-- The delay timer in a step: the advance of R32 if the timers run. -/
theorem State.timed_delay (s : State) :
    (s.timed.DT, s.timed.DTacc) = if s.timersRun
      then timerAdvance s.DT s.DTacc s.port.nextInput.elapsed else (s.DT, s.DTacc) := by
  show (s.hostTurn.advanceTimers.DT, s.hostTurn.advanceTimers.DTacc) = _
  rw [State.advanceTimers_DT, State.advanceTimers_DTacc]
  show ((if s.timersRun then _ else _), (if s.timersRun then _ else _)) = _
  cases s.timersRun <;> rfl

/-- The sound timer in a step: the advance of R32 if the timers run. -/
theorem State.timed_sound (s : State) :
    (s.timed.ST, s.timed.STacc) = if s.timersRun
      then timerAdvance s.ST s.STacc s.port.nextInput.elapsed else (s.ST, s.STacc) := by
  show (s.hostTurn.advanceTimers.ST, s.hostTurn.advanceTimers.STacc) = _
  rw [State.advanceTimers_ST, State.advanceTimers_STacc]
  show ((if s.timersRun then _ else _), (if s.timersRun then _ else _)) = _
  cases s.timersRun <;> rfl

theorem State.timed_delay_of_running {s : State} (h : s.awaiting = false) :
    (s.timed.DT, s.timed.DTacc) = timerAdvance s.DT s.DTacc s.port.nextInput.elapsed := by
  rw [State.timed_delay, if_pos (State.timersRun_of_running h)]

theorem State.timed_sound_of_running {s : State} (h : s.awaiting = false) :
    (s.timed.ST, s.timed.STacc) = timerAdvance s.ST s.STacc s.port.nextInput.elapsed := by
  rw [State.timed_sound, if_pos (State.timersRun_of_running h)]

theorem advanceTimers_DT_le (s : State) : s.advanceTimers.DT.toNat ≤ s.DT.toNat := by
  rw [State.advanceTimers_DT]
  split
  · exact countDown_le s.DT _
  · exact Nat.le_refl _

theorem advanceTimers_ST_le (s : State) : s.advanceTimers.ST.toNat ≤ s.ST.toNat := by
  rw [State.advanceTimers_ST]
  split
  · exact countDown_le s.ST _
  · exact Nat.le_refl _

/-! ### Each way through R41 -/

theorem step_of_halted {s : State} (h : s.halted = true) : step s = .next s.hostTurn :=
  if_pos h

theorem step_of_waiting {s : State} (hh : s.halted = false) (hw : s.awaiting = true) :
    step s = .next s.timed.resolveKeyWait := by
  simp [step, State.cycle, State.coreTurn, State.timed, hh, hw]

theorem step_of_running {s : State} (hh : s.halted = false) (hw : s.awaiting = false) :
    step s = s.timed.fetchAndRun := by
  simp [step, State.cycle, State.coreTurn, State.timed, hh, hw]

/-- A fetch in range reads the bytes at the pc of the state before the step. -/
theorem State.fetch_timed {s : State} (h : s.pc.toNat + 1 ≤ 4095) :
    s.timed.fetch = .ok (wordOfBytes (Memory.byte s.mem s.pc.toNat)
      (Memory.byte s.mem (s.pc.toNat + 1))) :=
  State.fetch_of_le (s := s.timed) h

theorem step_of_unknown {s : State} {w : Word} (hh : s.halted = false) (hw : s.awaiting = false)
    (hpc : s.pc.toNat + 1 ≤ 4095)
    (hword : w = wordOfBytes (Memory.byte s.mem s.pc.toNat) (Memory.byte s.mem (s.pc.toNat + 1)))
    (hd : decodeWord w = .error (.unknownInstruction w)) :
    step s = .next (s.timed.advancePc.diagnose w) := by
  rw [step_of_running hh hw, State.fetchAndRun, State.fetch_timed hpc, ← hword]
  simp only [State.runWord, hd]

theorem step_of_out_of_range {s : State} (hh : s.halted = false) (hw : s.awaiting = false)
    (hpc : s.pc.toNat + 1 > 4095) :
    step s = .next (s.timed.raise (.memOutOfBounds (max s.pc.toNat 4096)) s.pc) := by
  have hfetch : s.timed.fetch = .error (.memOutOfBounds (max s.pc.toNat 4096)) := by
    rcases s.timed.fetch_cases with ⟨hlt, _⟩ | ⟨_, hf⟩
    · exact absurd (show s.pc.toNat + 1 < 4096 from hlt) (by omega)
    · exact hf
  rw [step_of_running hh hw, State.fetchAndRun, hfetch]
  rfl

/-! ### The statements on a step -/

/-- Settles O44: the step is `exec` on the state after the host's turn, the timer advance and the pc
advance, each with its frame. -/
theorem stepRunsTheDecodedInstruction : Obligations.StepRunsTheDecodedInstruction :=
  fun s _ hh hw hpc hd => ⟨s.timed.advancePc, step_eq_exec ⟨hh, hw, hpc, hd⟩, rfl,
    State.timed_delay_of_running hw, State.timed_sound_of_running hw, rfl, rfl, rfl, rfl,
    unchangedExcept_timed_advancePc s⟩

/-- The address of the instruction under way is the pc before its fetch advance. -/
theorem State.instrAddr_advancePc (s : State) : s.advancePc.instrAddr = s.pc :=
  add_sub_cancel_right s.pc 2

/-- Settles O45: the state of O44 with the diagnostic as its event. -/
theorem unknownWordOnlyEmitsItsDiagnostic : Obligations.UnknownWordOnlyEmitsItsDiagnostic := by
  intro s w hh hw hpc hword hd
  have hport : (s.timed.advancePc.diagnose w).port =
      { s.hostTurn.port with event := some (.unknownInstruction w s.pc) } := by
    rw [State.diagnose_port, State.instrAddr_advancePc]
    rfl
  exact ⟨_, step_of_unknown hh hw hpc hword hd, rfl, hport, by rw [hport],
    State.timed_delay_of_running hw, State.timed_sound_of_running hw, rfl,
    ((unchangedExcept_timed_advancePc s).trans (unchangedExcept_port_diagnose _ w)).mono
      (by decide)⟩

/-- Settles O46: the fault is taken on the state after the timer advance, whose pc has not moved. -/
theorem fetchOutOfRangeHalts : Obligations.FetchOutOfRangeHalts := fun s hh hw hpc =>
  ⟨_, step_of_out_of_range hh hw hpc, rfl, rfl, rfl, rfl, rfl, rfl,
    State.timed_delay_of_running hw, State.timed_sound_of_running hw,
    ((unchangedExcept_timed s).trans (unchangedExcept_faults_raise _ _ _)).mono (by decide)⟩

/-- Settles O47: the step is the host's turn alone. -/
theorem haltedStepChangesNothing : Obligations.HaltedStepChangesNothing := by
  intro s hh
  refine ⟨_, step_of_halted hh, rfl, rfl, rfl, ?_, unchangedExcept_hostTurn s⟩
  simp only [State.hostTurn_frame, Bool.and_eq_true]

/-- Settles O49: field by field, for inputs lined up and for free ones. -/
theorem hostTurnSamplesAndPresents : Obligations.HostTurnSamplesAndPresents := by
  intro s
  refine ⟨rfl, rfl, fun x xs hp => ⟨?_, ?_, ?_⟩, fun hp => ⟨?_, ?_, ?_⟩, fun hc => ⟨?_, ?_⟩,
    fun hc => ⟨?_, ?_⟩, unchangedExcept_hostTurn s⟩
  · exact HostPort.nextInput_cons s.port x xs hp
  · rw [State.hostTurn_pending, hp, List.tail_cons]
  · simp [hp]
  · exact HostPort.nextInput_nil s.port hp
  · rw [State.hostTurn_pending, hp, List.tail_nil]
  · simp [hp]
  · simp [hc]
  · simp [hc]
  · simp [hc]
  · simp [hc]

/-! ### The key wait -/

/-- With no key down the wait goes on; the least key down ends it and goes to its register (R42). -/
theorem resolveKeyWait_regs (s : State) :
    (s.keys = 0 → s.resolveKeyWait = s) ∧
    (∀ k, LeastKeyDown s.keys k → s.resolveKeyWait.awaiting = false ∧
      (s.resolveKeyWait.readReg s.waitReg).toNat = k.val ∧
      ∀ r, r ≠ s.waitReg → s.resolveKeyWait.readReg r = s.readReg r) := by
  refine ⟨fun h => State.resolveKeyWait_none ((lowestKey_eq_none _).mpr h), fun k hk => ?_⟩
  rw [State.resolveKeyWait_some hk.lowestKey]
  refine ⟨rfl, ?_, fun r hr => State.readReg_writeReg_ne s _ hr⟩
  rw [State.readReg_endWait, State.readReg_writeReg_same, toNat_keyByte]

/-- Resolving the wait leaves its register number. -/
theorem State.resolveKeyWait_waitReg (s : State) : s.resolveKeyWait.waitReg = s.waitReg := by
  cases hk : lowestKey s.keys with
  | none => rw [State.resolveKeyWait_none hk]
  | some k => rw [State.resolveKeyWait_some hk]; rfl

/-- Settles O48: the timer advance by the parameter, then the wait resolved by the keys. -/
theorem keyWaitStepResolvesOrWaits : Obligations.KeyWaitStepResolvesOrWaits := by
  intro s hh hw
  obtain ⟨hnone, hsome⟩ := resolveKeyWait_regs s.timed
  have hframe := unchangedExcept_resolveKeyWait s.timed
  have hDT : s.timed.resolveKeyWait.DT = s.timed.DT := hframe .delay (by decide)
  have hST : s.timed.resolveKeyWait.ST = s.timed.ST := hframe .sound (by decide)
  have hacc := hframe .accumulators (by decide)
  have hport : s.timed.resolveKeyWait.port = s.hostTurn.port := hframe .port (by decide)
  refine ⟨_, step_of_waiting hh hw, fun hk => ?_, hsome, State.resolveKeyWait_waitReg s.timed,
    ?_, ?_, hport, by rw [hport]; rfl, hframe .dirty (by decide),
    ((unchangedExcept_timed s).trans hframe).mono (by decide)⟩
  · rw [hnone hk]
    exact ⟨hw, fun r => rfl⟩
  · rw [hDT, hacc.1, State.timed_delay, State.timersRun_of_waiting hw]
  · rw [hST, hacc.2, State.timed_sound, State.timersRun_of_waiting hw]

/-! ### A word that was placed -/

theorem decode_of_decodeTableWord {w : Nat} {i : Instr} (h : decodeTableWord 16 w = some i) :
    decodeWord (BitVec.ofNat 16 (w % 2 ^ 16)) = .ok i := by
  simp only [decodeTableWord, decode, wordOfBytes_bytes] at h
  cases hd : decodeWord (BitVec.ofNat 16 (w % 2 ^ 16)) with
  | ok j =>
    rw [hd] at h
    cases h
    rfl
  | error e =>
    rw [hd] at h
    cases h

/-- A word placed where it fits is what the next fetch reads. -/
theorem word_of_placeWord {s : State} (w : Word) (hwf : Memory.wf s.mem = true)
    (hpc : s.pc.toNat + 1 ≤ 4095) :
    wordOfBytes (Memory.byte (s.placeWord w).mem s.pc.toNat)
      (Memory.byte (s.placeWord w).mem (s.pc.toNat + 1)) = w := by
  have hlast : s.pc.toNat + 1 < Config.memSize := Nat.lt_succ_of_le hpc
  have hhi : Memory.byte (s.placeWord w).mem (s.pc.toNat + 0) = Word.hiByte w :=
    Memory.byte_setBytes_inside hwf s.pc.toNat [Word.hiByte w, Word.loByte w] Nat.zero_lt_two
      (Nat.lt_of_succ_lt hlast)
  have hlo : Memory.byte (s.placeWord w).mem (s.pc.toNat + 1) = Word.loByte w :=
    Memory.byte_setBytes_inside hwf s.pc.toNat [Word.hiByte w, Word.loByte w] Nat.one_lt_two hlast
  rw [Nat.add_zero] at hhi
  rw [hhi, hlo, wordOfBytes_bytes]

/-- Settles O50: the state with the word placed is one that runs the word's instruction. -/
theorem placedWordIsRun : Obligations.PlacedWordIsRun := by
  intro s w i hwf hpc hd
  refine step_eq_exec ⟨rfl, rfl, hpc, (decode_two _ _ i).mpr ?_⟩
  rw [← decode_of_decodeTableWord hd]
  exact congrArg decodeWord (word_of_placeWord _ hwf hpc)

/-! ### Every step answers, and the counts only go down -/

theorem exists_runWord (s : State) (w : Word) : ∃ t, s.runWord w = .next t := by
  unfold State.runWord
  split
  · next i _ =>
    obtain ⟨t, ht, _⟩ := exec_frame i s
    exact ⟨t, ht⟩
  · exact ⟨_, rfl⟩

theorem exists_fetchAndRun (s : State) : ∃ t, s.fetchAndRun = .next t := by
  unfold State.fetchAndRun
  split
  · exact exists_runWord _ _
  · exact ⟨_, rfl⟩

/-- Settles O51: the arms of `exec` and of the step all answer next states. -/
theorem everyStepAnswersANextState : Obligations.EveryStepAnswersANextState := by
  refine ⟨fun i s => ?_, fun s => ?_⟩
  · obtain ⟨t, ht, _⟩ := exec_frame i s
    exact ⟨t, ht⟩
  · cases hh : s.halted with
    | true => exact ⟨_, step_of_halted hh⟩
    | false =>
      cases hw : s.awaiting with
      | true => exact ⟨_, step_of_waiting hh hw⟩
      | false =>
        rw [step_of_running hh hw]
        exact exists_fetchAndRun _

/-- A step raises neither count, unless it executes an instruction. -/
theorem step_counts {s t : State} (h : step s = .next t) :
    (t.DT.toNat ≤ s.DT.toNat ∧ t.ST.toNat ≤ s.ST.toNat) ∨
    ∃ i, s.Runs i ∧ exec i s.timed.advancePc = .next t := by
  have hDT : s.timed.DT.toNat ≤ s.DT.toNat := advanceTimers_DT_le s.hostTurn
  have hST : s.timed.ST.toNat ≤ s.ST.toNat := advanceTimers_ST_le s.hostTurn
  rcases step_cases h with ⟨_, rfl⟩ | ⟨_, _, rfl⟩ | hexec | ⟨_, _, _, rfl⟩ | ⟨_, _, _, rfl⟩
  · exact .inl ⟨Nat.le_refl _, Nat.le_refl _⟩
  · have hframe := unchangedExcept_resolveKeyWait s.timed
    refine .inl ⟨?_, ?_⟩
    · exact Nat.le_trans (Nat.le_of_eq (congrArg BitVec.toNat (hframe .delay (by decide)))) hDT
    · exact Nat.le_trans (Nat.le_of_eq (congrArg BitVec.toNat (hframe .sound (by decide)))) hST
  · exact .inr hexec
  · exact .inl ⟨hDT, hST⟩
  · exact .inl ⟨hDT, hST⟩

theorem delay_changed {i : Instr} {s t : State} (h : exec i s = .next t) (hne : t.DT ≠ s.DT) :
    ∃ x, i = .ldDTReg x :=
  delay_touched (mem_touches_of_changed h hne)

theorem sound_changed {i : Instr} {s t : State} (h : exec i s = .next t) (hne : t.ST ≠ s.ST) :
    ∃ x, i = .ldSTReg x :=
  sound_touched (mem_touches_of_changed h hne)

/-- A step that raises `DT` ran `Fx15`. -/
theorem step_raises_DT {s t : State} (h : step s = .next t) (hlt : s.DT.toNat < t.DT.toNat) :
    ∃ x, s.Runs (.ldDTReg x) ∧ t.DT = s.readReg x := by
  have hle : s.timed.DT.toNat ≤ s.DT.toNat := advanceTimers_DT_le s.hostTurn
  rcases step_counts h with ⟨hDT, _⟩ | ⟨i, hruns, hexec⟩
  · exact absurd hlt (Nat.not_lt_of_le hDT)
  · have hne : t.DT ≠ s.timed.DT := fun e => Nat.not_lt_of_le hle (e ▸ hlt)
    obtain ⟨x, rfl⟩ := delay_changed hexec hne
    cases hexec
    exact ⟨x, hruns, rfl⟩

/-- A step that raises `ST` ran `Fx18`. -/
theorem step_raises_ST {s t : State} (h : step s = .next t) (hlt : s.ST.toNat < t.ST.toNat) :
    ∃ x, s.Runs (.ldSTReg x) ∧ t.ST = s.readReg x := by
  have hle : s.timed.ST.toNat ≤ s.ST.toNat := advanceTimers_ST_le s.hostTurn
  rcases step_counts h with ⟨_, hST⟩ | ⟨i, hruns, hexec⟩
  · exact absurd hlt (Nat.not_lt_of_le hST)
  · have hne : t.ST ≠ s.timed.ST := fun e => Nat.not_lt_of_le hle (e ▸ hlt)
    obtain ⟨x, rfl⟩ := sound_changed hexec hne
    cases hexec
    exact ⟨x, hruns, rfl⟩

/-- Settles O43: of a step, of the timer advance and of an instruction. -/
theorem countsOnlyGoDown : Obligations.CountsOnlyGoDown := fun s =>
  ⟨fun _ h => ⟨step_raises_DT h, step_raises_ST h⟩, advanceTimers_DT_le s, advanceTimers_ST_le s,
    fun _ _ h => ⟨delay_changed h, sound_changed h⟩⟩

end Sys2Proof.Machine
end
